-- ==== Sys2Proof/Word.lean ====
section
/-! DEFINITION. The word types of the CRUMBS frame engine (00_scope.md R9, 30_encoding.md R81). -/

namespace Sys2Proof

/-- A byte: 8 bits, bit 0 the least significant (R9). -/
abbrev Byte := BitVec 8

/-- A 32-bit value of the host data path (`VAL`, `CRC_ERROR_COUNT`, `wdata`, `rdata`). -/
abbrev Word := BitVec 32

/-- One host-port transaction, format `HOST41` (30_encoding.md R81). -/
abbrev HostWord := BitVec 41

end Sys2Proof
end

