-- ==== Sys2Proof/Config.lean ====
section
/-! DEFINITION. What an implementation fixes: the fixed sizes and the two parameters of 00_scope.md R7. -/

namespace Sys2Proof

/-- What `CRC_ERROR_COUNT` does at 0xFFFFFFFF + 1 (parameter `CNT_OVF`, R7, 10_state.md R30). -/
inductive CntOvf where
  | wrap
  | saturate
  deriving DecidableEq, Repr

/-- Which function the parameter `CRC8` is (R7, R8): the default of 40_crc.md R101, or some other
function, known only by a number. -/
inductive CrcChoice where
  | default
  | other (k : Nat)
  deriving DecidableEq, Repr

/-- The parameters of the engine, as plain data (R7). They are fixed for one engine: no step writes them. -/
structure Config where
  crc : CrcChoice
  cntOvf : CntOvf
  deriving DecidableEq, Repr

/-- The functions `CRC8` may be besides the default one: total, pure, deterministic, and nothing more
is known of them (R8, 40_crc.md R100, R106). FREE: no body, so no proof can see a value (log entry 6). -/
opaque Config.otherCrc8 : Nat → List Byte → Byte

/-- The "default" column of R7: `CRC8` = R101, `CNT_OVF` = wrap. -/
def Config.standard : Config := { crc := .default, cntOvf := .wrap }

/-- `MAX_PAYLOAD`: the largest legal `data_len` and the size of `M_DATA` (R7). -/
abbrev maxPayload : Nat := 27

/-- `HEADER_LEN`: the bytes before the payload (R7). -/
abbrev headerLen : Nat := 3

/-- `MIN_FRAME`: header and CRC (R7). -/
abbrev minFrame : Nat := 4

/-- `FB_SIZE` = `MAX_FRAME`: the bytes of the frame buffer (R7, decision D4). -/
abbrev fbSize : Nat := 31

/-- `SET_REPLY`: the frame opcode reserved by the protocol, plain data to the codec (R7, 30_encoding.md R85). -/
abbrev setReply : Byte := 0xFE

end Sys2Proof
end

