-- ==== Sys2Proof/Syntax.lean ====
section
/-! DEFINITION. The operations of the engine: the twelve rows of spec/opcode_table.json, and the named registers. -/

namespace Sys2Proof

/-- The ten commands of 30_encoding.md R78, selected by the byte written to `CMD`. -/
inductive Command where
  | crc8
  | encode
  | decode
  | decodeC
  | put8
  | put16
  | put32
  | get8
  | get16
  | get32
  deriving DecidableEq, Repr

/-- One operation of the engine: a host read, a host write, or a command (one constructor per row of the
opcode table). A `WR` to `CMD` whose byte the map of R78 lists is spelled as that command (R83); `wr` with
the number of `CMD` is left for the reserved bytes of R79. -/
inductive Instr where
  | rd (reg : Byte)
  | wr (reg : Byte) (value : Word)
  | crc8
  | encode
  | decode
  | decodeC
  | put8
  | put16
  | put32
  | get8
  | get16
  | get32
  deriving DecidableEq, Repr

/-- A defined register of 10_state.md R22; the arrays are visible one register number per byte. -/
inductive Reg where
  | cmd
  | status
  | result
  | len
  | cap
  | rangeOff
  | rangeLen
  | rpos
  | val
  | crcErrorCount
  | lastCrcOk
  | mTypeId
  | mOpcode
  | mDataLen
  | mCrc
  | mSrcAddr
  | mData (i : Fin 27)
  | fb (j : Fin 31)
  deriving DecidableEq, Repr

/-- The host's access to a register (R22): read/write, read-only, write-trigger. -/
inductive Access where
  | rw
  | ro
  | wt
  deriving DecidableEq, Repr

/-- The operation a command is (30_encoding.md R83: the bare mnemonic stands for `WR CMD, byte`). -/
def Command.toInstr : Command → Instr
  | .crc8 => .crc8
  | .encode => .encode
  | .decode => .decode
  | .decodeC => .decodeC
  | .put8 => .put8
  | .put16 => .put16
  | .put32 => .put32
  | .get8 => .get8
  | .get16 => .get16
  | .get32 => .get32

end Sys2Proof
end

