-- ==== Sys2Proof/WellFormed.lean ====
section
/-! DEFINITION. Which terms of `Instr` stand for a host word in their canonical spelling. -/

namespace Sys2Proof

/-- The command bytes of 30_encoding.md R78; every other byte is reserved (R79). -/
def listedCommandBytes : List Byte := [0x01, 0x02, 0x03, 0x13, 0x04, 0x05, 0x06, 0x08, 0x09, 0x0A]

/-- The one check: a `WR` to `CMD` (0x00) whose low byte is a listed command is not spelled `wr` but as
the command itself (30_encoding.md R83, 43_host_port.md R173). `exec` gives that `wr` its meaning all the
same (log entry 8). -/
def Instr.wf : Instr → Bool
  | .wr reg value => !(reg == 0x00 && listedCommandBytes.contains (value.setWidth 8))
  | .rd _ => true
  | .crc8 => true
  | .encode => true
  | .decode => true
  | .decodeC => true
  | .put8 => true
  | .put16 => true
  | .put32 => true
  | .get8 => true
  | .get16 => true
  | .get32 => true

/-- `i` is in canonical spelling. -/
abbrev Instr.WellFormed (i : Instr) : Prop := i.wf = true

end Sys2Proof
end

