-- ==== Sys2Proof/Decode.lean ====
section
/-! DEFINITION. The command byte (30_encoding.md R77 to R79, R84), the host word `HOST41` (R81), the
decoder over both and the encoder. -/

namespace Sys2Proof

/-- Why an encoding stands for no operation of the table. -/
inductive DecodeError where
  /-- A `CMD8` byte outside the map of R78 (R79). -/
  | reservedCommand (c : Byte)
  /-- More bits set than the eight of `CMD8`. -/
  | notCmd8 (w : Nat)
  /-- A bit above bit 40 is set: no `HOST41` word. -/
  | notHost41 (w : Nat)
  deriving DecidableEq, Repr

/-- The command map of R78, all eight bits taking part (R84). -/
def Command.ofByte (c : Byte) : Option Command :=
  match c.toNat with
  | 0x01 => some .crc8
  | 0x02 => some .encode
  | 0x03 => some .decode
  | 0x13 => some .decodeC
  | 0x04 => some .put8
  | 0x05 => some .put16
  | 0x06 => some .put32
  | 0x08 => some .get8
  | 0x09 => some .get16
  | 0x0A => some .get32
  | _ => none

/-- The byte of a command (R78). -/
def Command.byte : Command → Byte
  | .crc8 => 0x01
  | .encode => 0x02
  | .decode => 0x03
  | .decodeC => 0x13
  | .put8 => 0x04
  | .put16 => 0x05
  | .put32 => 0x06
  | .get8 => 0x08
  | .get16 => 0x09
  | .get32 => 0x0A

/-- `we`, bit 40 (R81). -/
def hostWe (w : HostWord) : Bool := w.getLsbD 40

/-- `reg`, bits 39:32 (R81). -/
def hostReg (w : HostWord) : Byte := w.extractLsb' 32 8

/-- `wdata`, bits 31:0 (R81). -/
def hostData (w : HostWord) : Word := w.extractLsb' 0 32

/-- The `HOST41` word with these fields (R81). -/
def hostWord (we : Bool) (reg : Byte) (wdata : Word) : HostWord :=
  BitVec.ofBool we ++ reg ++ wdata

/-- The byte of a value written to `CMD`: bits 31:8 are ignored (43_host_port.md R173). -/
def commandByte (value : Word) : Byte := value.setWidth 8

/-- The operation a host word stands for (R81, R173). Every word stands for one: no host operation fails
(43_host_port.md R170, R171). `wdata` of a read and bits 31:8 of a listed command's word are ignored. -/
def decodeInstr (w : HostWord) : Instr :=
  if hostWe w then
    if hostReg w = 0x00 then
      match Command.ofByte (commandByte (hostData w)) with
      | some c => c.toInstr
      | none => .wr (hostReg w) (hostData w)
    else .wr (hostReg w) (hostData w)
  else .rd (hostReg w)

/-- The decoder over bits as spec/opcode_table.json numbers them: an eight-bit row is a `CMD8` byte, a
longer one a `HOST41` word. Total; it rejects by name. -/
def decodeBits (nbits w : Nat) : Except DecodeError Instr :=
  if nbits ≤ 8 then
    if w < 2 ^ 8 then
      match Command.ofByte (BitVec.ofNat 8 w) with
      | some c => .ok c.toInstr
      | none => .error (.reservedCommand (BitVec.ofNat 8 w))
    else .error (.notCmd8 w)
  else if w < 2 ^ 41 then .ok (decodeInstr (BitVec.ofNat 41 w))
  else .error (.notHost41 w)

/-- The instruction of a table row's bits, none where the decoder rejects them. -/
def decodeTableWord (nbits w : Nat) : Option Instr :=
  match decodeBits nbits w with
  | .ok i => some i
  | .error _ => none

/-- The host word that issues a table row's bits: a `CMD8` byte goes out as `WR CMD, byte` (R83), a
`HOST41` word as itself. -/
def tableHostWord (nbits w : Nat) : HostWord :=
  if nbits ≤ 8 then hostWord true 0x00 (BitVec.ofNat 32 (w % 2 ^ 8)) else BitVec.ofNat 41 w

/-- The host word that issues a command (R83, the table's "issue" column). -/
def encodeCommand (c : Command) : HostWord := hostWord true 0x00 (c.byte.setWidth 32)

/-- The encoder: the canonical host word of an operation, ignored bits 0 (R81, R83). -/
def encodeInstr : Instr → HostWord
  | .rd reg => hostWord false reg 0
  | .wr reg value => hostWord true reg value
  | .crc8 => encodeCommand .crc8
  | .encode => encodeCommand .encode
  | .decode => encodeCommand .decode
  | .decodeC => encodeCommand .decodeC
  | .put8 => encodeCommand .put8
  | .put16 => encodeCommand .put16
  | .put32 => encodeCommand .put32
  | .get8 => encodeCommand .get8
  | .get16 => encodeCommand .get16
  | .get32 => encodeCommand .get32

end Sys2Proof
end

