-- ==== Sys2Proof/Machine/State.lean ====
section
/-! DEFINITION. The architectural state of the engine (10_state.md), its reset values (R40), and the reasons a step can stop. -/

namespace Sys2Proof.Machine

/-- A byte array of the engine as cells (offset, byte), in the canonical form of `Memory.wf`
(Machine/Ops.lean): offsets strictly rising, none listed with the value an unlisted offset reads as. -/
abbrev Memory := List Host.Cell

/-- The status kinds of 30_encoding.md R80; their numbers are `Status.code` (Machine/Flags.lean). -/
inductive Status where
  | ok
  | invalidArgument
  | payloadTooLarge
  | bufferTooSmall
  | frameTooShort
  | malformedLength
  | crcMismatch
  /-- Environment only: no command of the engine raises it (R80, 60_exceptions.md R211). -/
  | wrongRole
  /-- Environment only: no command of the engine raises it (R80, 60_exceptions.md R211). -/
  | handlerTableFull
  | marshalRefused
  deriving DecidableEq, Repr

/-- Every register and array of 10_state.md R20 and R22 (`CMD` stores nothing, R27), and three fields
of the model's own: `cfg`, `hostOps`, `rdLog`. -/
structure State where
  /-- `STATUS` (R28). -/
  status : Byte
  /-- `RESULT` (R29). -/
  result : Byte
  /-- `LEN` (R23). -/
  len : Byte
  /-- `CAP` (R23). -/
  cap : Byte
  /-- `RANGE_OFF` (R23). -/
  rangeOff : Byte
  /-- `RANGE_LEN` (R23). -/
  rangeLen : Byte
  /-- `RPOS` (R32). -/
  rpos : Byte
  /-- `VAL` (R32). -/
  val : Word
  /-- `CRC_ERROR_COUNT` (R30). -/
  crcErrorCount : Word
  /-- `LAST_CRC_OK`, one bit (R31). -/
  lastCrcOk : Bool
  /-- `M_TYPE_ID` (R24). -/
  mTypeId : Byte
  /-- `M_OPCODE` (R24). -/
  mOpcode : Byte
  /-- `M_DATA_LEN` (R24). -/
  mDataLen : Byte
  /-- `M_CRC` (R24). -/
  mCrc : Byte
  /-- `M_SRC_ADDR` (R24). -/
  mSrcAddr : Byte
  /-- `M_DATA[0..26]` (R25), keyed by payload offset. -/
  mData : Memory
  /-- `FB[0..30]` (R26), keyed by frame offset. -/
  fb : Memory
  /-- The MODEL's own: the parameters of 00_scope.md R7, constant (log entry 5). -/
  cfg : Config
  /-- The MODEL's own: the host operations not yet issued, the next one first (R14, log entry 3). -/
  hostOps : List HostWord
  /-- The MODEL's own: the values the `RD`s have returned, in order (R14, log entry 3). -/
  rdLog : List Word
  deriving DecidableEq, Repr

/-- Why a step can stop with a fault. None ever does: every command checks its bounds before it touches
an array (20_memory.md R50). Safe: the model stops where the spec says nothing can happen (log entry 12). -/
inductive Fault where
  /-- Raised by the access operations of `FB` for `count` bytes at `offset`, not all inside 0..30. Safe. -/
  | fbOutOfRange (offset count : Nat)
  /-- Raised by the access operations of `M_DATA` for `count` bytes at `offset`, not all inside 0..26. Safe. -/
  | mdOutOfRange (offset count : Nat)
  deriving DecidableEq, Repr

/-- Why a step can be refused. No arm of `exec` refuses: every operation of the table has its meaning. -/
inductive Refusal where
  /-- Raised only by an arm of `exec` whose instruction has no meaning yet (there is none). Safe. -/
  | notModelled (mnemonic : String)
  deriving DecidableEq, Repr

/-- What a step, a meaning or a host sequence answers. -/
abbrev Answer := Host.Outcome State Fault Refusal

/-- The values R40 leaves unspecified: "each holds some fixed value that the spec does not name". -/
structure PowerOn where
  val : Word
  mTypeId : Byte
  mOpcode : Byte
  mDataLen : Byte
  mCrc : Byte
  mSrcAddr : Byte
  mData : Memory
  fb : Memory
  deriving DecidableEq, Repr

/-- The values `State.reset` takes for them (DESIGN CHOICE, log entries 1 and 2). -/
def PowerOn.zero : PowerOn :=
  { val := 0, mTypeId := 0, mOpcode := 0, mDataLen := 0, mCrc := 0, mSrcAddr := 0, mData := [], fb := [] }

/-- The state after reset (R40, 70_reset_and_hazards.md R240) of an engine with parameters `cfg` whose
unspecified registers hold `u`. -/
def State.resetWith (cfg : Config) (u : PowerOn) : State :=
  { status := 0, result := 0, len := 0, cap := 0, rangeOff := 0, rangeLen := 0, rpos := 0
    val := u.val, crcErrorCount := 0, lastCrcOk := false
    mTypeId := u.mTypeId, mOpcode := u.mOpcode, mDataLen := u.mDataLen, mCrc := u.mCrc
    mSrcAddr := u.mSrcAddr, mData := u.mData, fb := u.fb
    cfg := cfg, hostOps := [], rdLog := [] }

/-- The state after reset with the default parameters and the logged choice for the unspecified values. -/
def State.reset : State := State.resetWith Config.standard PowerOn.zero

end Sys2Proof.Machine
end

