-- ==== Sys2Proof/Machine/Flags.lean ====
section
/-! DEFINITION. The condition codes of the engine: status numbers, and the two statistics (10_state.md R34). -/

namespace Sys2Proof.Machine

/-- The number of a status kind (30_encoding.md R80). -/
def Status.code : Status → Byte
  | .ok => 0x00
  | .invalidArgument => 0x01
  | .payloadTooLarge => 0x02
  | .bufferTooSmall => 0x03
  | .frameTooShort => 0x04
  | .malformedLength => 0x05
  | .crcMismatch => 0x06
  | .wrongRole => 0x07
  | .handlerTableFull => 0x08
  | .marshalRefused => 0xFF

/-- `inc32` (41_frame_codec.md R130, 10_state.md R30): wrap to 0 or stay at 0xFFFFFFFF. -/
def inc32 (ovf : CntOvf) (v : Word) : Word :=
  match ovf with
  | .wrap => v + 1
  | .saturate => if v = 0xFFFFFFFF then v else v + 1

/-- The statistics of a DECODE.C whose CRC agreed (41_frame_codec.md R137). -/
def noteCrcOk (s : State) : State := { s with lastCrcOk := true }

/-- The statistics of a DECODE.C that ends CrcMismatch (R137). -/
def noteCrcError (s : State) : State :=
  { s with lastCrcOk := false, crcErrorCount := inc32 s.cfg.cntOvf s.crcErrorCount }

end Sys2Proof.Machine
end

