-- ==== Sys2Proof/Machine/Ops.lean ====
section
/-! DEFINITION. The named operations: bytes of an array, accesses to FB and M_DATA, ending a command, taking the next host operation. -/

namespace Sys2Proof.Machine

/-! ### Bytes of an array -/

/-- What an offset that no cell lists reads as (DESIGN CHOICE: the spec leaves reset contents unspecified, log entry 2). -/
def Memory.unlisted : Byte := 0x00

/-- The byte at an offset. -/
def Memory.readByte : Memory → Nat → Byte
  | [], _ => Memory.unlisted
  | (b, v) :: rest, a => if b = a then v else Memory.readByte rest a

/-- A cell put before the first cell of a higher offset. -/
def Memory.insertCell (a : Nat) (v : Byte) : Memory → Memory
  | [] => [(a, v)]
  | (b, w) :: rest => if a < b then (a, v) :: (b, w) :: rest else (b, w) :: Memory.insertCell a v rest

/-- The array after one byte is stored: no other offset changes, and the canonical form is kept. -/
def Memory.writeByte (m : Memory) (a : Nat) (v : Byte) : Memory :=
  if v = Memory.unlisted then m.filter (fun c => c.1 != a)
  else Memory.insertCell a v (m.filter (fun c => c.1 != a))

/-- The bytes at `o, o+1, …, o+k-1`, lowest offset first (00_scope.md R10). -/
def Memory.readBytes (m : Memory) (o k : Nat) : List Byte :=
  (List.range k).map (fun i => m.readByte (o + i))

/-- The array after the bytes are stored from offset `o` upwards. -/
def Memory.writeBytes (m : Memory) (o : Nat) : List Byte → Memory
  | [] => m
  | b :: bs => Memory.writeBytes (m.writeByte o b) (o + 1) bs

/-- Every offset from `low` up to `size`, strictly rising, no cell with the unlisted value. -/
def Memory.wfFrom (size low : Nat) : Memory → Bool
  | [] => true
  | (a, v) :: rest =>
    decide (low ≤ a) && decide (a < size) && decide (v ≠ Memory.unlisted) && Memory.wfFrom size (a + 1) rest

/-- The canonical form of an array of `size` bytes. -/
def Memory.wf (size : Nat) (m : Memory) : Bool := Memory.wfFrom size 0 m

/-! ### Accesses by a command -/

/-- Go on with what an access gave, or stop with its fault. -/
def onAccess {α : Type} (r : Except Fault α) (k : α → Answer) : Answer :=
  match r with
  | .ok a => k a
  | .error f => .fault f

/-- `MemRead(FB+o, k)` (00_scope.md R10). -/
def readFb (s : State) (o k : Nat) : Except Fault (List Byte) :=
  if o + k ≤ fbSize then .ok (s.fb.readBytes o k) else .error (.fbOutOfRange o k)

/-- `FB[j]` (R10). -/
def readFbByte (s : State) (j : Nat) : Except Fault Byte :=
  if j < fbSize then .ok (s.fb.readByte j) else .error (.fbOutOfRange j 1)

/-- `FB[o] <- bs[0]; FB[o+1] <- bs[1]; …` (R10). -/
def writeFb (s : State) (o : Nat) (bs : List Byte) : Except Fault State :=
  if o + bs.length ≤ fbSize then .ok { s with fb := s.fb.writeBytes o bs }
  else .error (.fbOutOfRange o bs.length)

/-- `MemRead(MD+o, k)` (R10). -/
def readMd (s : State) (o k : Nat) : Except Fault (List Byte) :=
  if o + k ≤ maxPayload then .ok (s.mData.readBytes o k) else .error (.mdOutOfRange o k)

/-- `M_DATA[o] <- bs[0]; M_DATA[o+1] <- bs[1]; …` (R10). -/
def writeMd (s : State) (o : Nat) (bs : List Byte) : Except Fault State :=
  if o + bs.length ≤ maxPayload then .ok { s with mData := s.mData.writeBytes o bs }
  else .error (.mdOutOfRange o bs.length)

/-! ### Ending a command -/

/-- `raise <Status>` (R10, 60_exceptions.md R212): the engine's exception entry. STATUS takes the code,
RESULT 0, and the command ends; nothing is saved and control goes nowhere, so there is no return from it (R214). -/
def raise (e : Status) (s : State) : State := { s with status := e.code, result := 0 }

/-- `done(r)` (R10): STATUS Ok, RESULT `r` truncated to its 8 bits. -/
def done (r : Nat) (s : State) : State :=
  { s with status := Status.ok.code, result := BitVec.ofNat 8 r }

/-! ### The host's side of the port -/

/-- The value an `RD` returns joins the list of returned values (00_scope.md R14). -/
def returnToHost (v : Word) (s : State) : State := { s with rdLog := s.rdLog ++ [v] }

/-- The next host operation and the state with it taken off the host's list; none when the host has
issued all it has. -/
def takeHostOp (s : State) : Option (HostWord × State) :=
  match s.hostOps with
  | [] => none
  | w :: rest => some (w, { s with hostOps := rest })

/-- The host issues `w` before all else it has. -/
def putHostOp (w : HostWord) (s : State) : State := { s with hostOps := w :: s.hostOps }

/-- With no operation issued the engine is idle (10_state.md R21): nothing changes. -/
def idle (s : State) : Answer := .next s

end Sys2Proof.Machine
end

