-- ==== Sys2Proof/Machine/Operands.lean ====
section
/-! DEFINITION. Operand forms: little-endian byte sequences (20_memory.md R54) and register numbers (10_state.md R22). -/

namespace Sys2Proof.Machine

/-! ### Little-endian values -/

/-- `v[8*i+7 : 8*i]`. -/
def byteOf (v : Word) (i : Nat) : Byte := v.extractLsb' (8 * i) 8

/-- The low `k` bytes of `v`, least significant first (R54). -/
def leBytes (v : Word) (k : Nat) : List Byte := (List.range k).map (byteOf v)

/-- The value of a byte sequence, least significant first, zero-extended to 32 bits (R54). -/
def leValue : List Byte → Word
  | [] => 0
  | b :: bs => b.setWidth 32 ||| (leValue bs <<< 8)

/-! ### Registers by number -/

/-- The register a number names; none for the reserved numbers (R22, R33). -/
def regOfNumber (n : Byte) : Option Reg :=
  match n.toNat with
  | 0x00 => some .cmd
  | 0x01 => some .status
  | 0x02 => some .result
  | 0x03 => some .len
  | 0x04 => some .cap
  | 0x05 => some .rangeOff
  | 0x06 => some .rangeLen
  | 0x07 => some .rpos
  | 0x08 => some .val
  | 0x09 => some .crcErrorCount
  | 0x0A => some .lastCrcOk
  | 0x10 => some .mTypeId
  | 0x11 => some .mOpcode
  | 0x12 => some .mDataLen
  | 0x13 => some .mCrc
  | 0x14 => some .mSrcAddr
  | a =>
    if h : 0x20 ≤ a ∧ a ≤ 0x3A then some (.mData ⟨a - 0x20, by omega⟩)
    else if h : 0x40 ≤ a ∧ a ≤ 0x5E then some (.fb ⟨a - 0x40, by omega⟩)
    else none

/-- The number of a register (R22). -/
def regNumber : Reg → Byte
  | .cmd => 0x00
  | .status => 0x01
  | .result => 0x02
  | .len => 0x03
  | .cap => 0x04
  | .rangeOff => 0x05
  | .rangeLen => 0x06
  | .rpos => 0x07
  | .val => 0x08
  | .crcErrorCount => 0x09
  | .lastCrcOk => 0x0A
  | .mTypeId => 0x10
  | .mOpcode => 0x11
  | .mDataLen => 0x12
  | .mCrc => 0x13
  | .mSrcAddr => 0x14
  | .mData i => BitVec.ofNat 8 (0x20 + i.val)
  | .fb j => BitVec.ofNat 8 (0x40 + j.val)

/-- The host's access to a register (R22, 43_host_port.md R172). -/
def regAccess : Reg → Access
  | .cmd => .wt
  | .status => .ro
  | .result => .ro
  | .crcErrorCount => .ro
  | .lastCrcOk => .ro
  | .len => .rw
  | .cap => .rw
  | .rangeOff => .rw
  | .rangeLen => .rw
  | .rpos => .rw
  | .val => .rw
  | .mTypeId => .rw
  | .mOpcode => .rw
  | .mDataLen => .rw
  | .mCrc => .rw
  | .mSrcAddr => .rw
  | .mData _ => .rw
  | .fb _ => .rw

/-- The width of a register in bits (R22). -/
def regWidth : Reg → Nat
  | .val => 32
  | .crcErrorCount => 32
  | .lastCrcOk => 1
  | .cmd => 8
  | .status => 8
  | .result => 8
  | .len => 8
  | .cap => 8
  | .rangeOff => 8
  | .rangeLen => 8
  | .rpos => 8
  | .mTypeId => 8
  | .mOpcode => 8
  | .mDataLen => 8
  | .mCrc => 8
  | .mSrcAddr => 8
  | .mData _ => 8
  | .fb _ => 8

/-- What the host reads from a register: its value zero-extended to 32 bits, 0 for `CMD` (R27, 43_host_port.md R170). -/
def readReg (s : State) : Reg → Word
  | .cmd => 0
  | .status => s.status.setWidth 32
  | .result => s.result.setWidth 32
  | .len => s.len.setWidth 32
  | .cap => s.cap.setWidth 32
  | .rangeOff => s.rangeOff.setWidth 32
  | .rangeLen => s.rangeLen.setWidth 32
  | .rpos => s.rpos.setWidth 32
  | .val => s.val
  | .crcErrorCount => s.crcErrorCount
  | .lastCrcOk => (BitVec.ofBool s.lastCrcOk).setWidth 32
  | .mTypeId => s.mTypeId.setWidth 32
  | .mOpcode => s.mOpcode.setWidth 32
  | .mDataLen => s.mDataLen.setWidth 32
  | .mCrc => s.mCrc.setWidth 32
  | .mSrcAddr => s.mSrcAddr.setWidth 32
  | .mData i => (s.mData.readByte i.val).setWidth 32
  | .fb j => (s.fb.readByte j.val).setWidth 32

/-- What the host reads from a register number: 0 from a reserved one (R33, R170). -/
def readNumber (s : State) (n : Byte) : Word :=
  match regOfNumber n with
  | some r => readReg s r
  | none => 0

/-- The state after the host stores to a register: an RW register takes the low bits of the value
(R171); the others keep what they hold (R172). Starting a command is not this operation's (R173). -/
def writeReg (s : State) (v : Word) : Reg → State
  | .len => { s with len := v.setWidth 8 }
  | .cap => { s with cap := v.setWidth 8 }
  | .rangeOff => { s with rangeOff := v.setWidth 8 }
  | .rangeLen => { s with rangeLen := v.setWidth 8 }
  | .rpos => { s with rpos := v.setWidth 8 }
  | .val => { s with val := v }
  | .mTypeId => { s with mTypeId := v.setWidth 8 }
  | .mOpcode => { s with mOpcode := v.setWidth 8 }
  | .mDataLen => { s with mDataLen := v.setWidth 8 }
  | .mCrc => { s with mCrc := v.setWidth 8 }
  | .mSrcAddr => { s with mSrcAddr := v.setWidth 8 }
  | .mData i => { s with mData := s.mData.writeByte i.val (v.setWidth 8) }
  | .fb j => { s with fb := s.fb.writeByte j.val (v.setWidth 8) }
  | .cmd => s
  | .status => s
  | .result => s
  | .crcErrorCount => s
  | .lastCrcOk => s

end Sys2Proof.Machine
end

