-- ==== Sys2Proof/Machine/Crc.lean ====
section
/-! DEFINITION. The CRC unit (40_crc.md): the function CRC8 and the command CRC8. -/

namespace Sys2Proof.Machine

/-- One of the eight repetitions of 40_crc.md R101. -/
def crcShift (c : Byte) : Byte := if c.getLsbD 7 then (c <<< 1) ^^^ 0x07 else c <<< 1

/-- `crcShift`, `n` times. -/
def crcShifts : Nat → Byte → Byte
  | 0, c => c
  | n + 1, c => crcShifts n (crcShift c)

/-- The accumulator after one more byte (R101). -/
def crcUpdate (c b : Byte) : Byte := crcShifts 8 (c ^^^ b)

/-- The default CRC8 (R101): initial value 0x00, bytes in order, no final XOR. -/
def crc8Default (bs : List Byte) : Byte := bs.foldl crcUpdate 0x00

/-- The function CRC8 of this engine, the same for the command and the codec (00_scope.md R8). -/
def crc8 (cfg : Config) (bs : List Byte) : Byte :=
  match cfg.crc with
  | .default => crc8Default bs
  | .other k => Config.otherCrc8 k bs

/-- CRC8 (R107): the checksum of `FB[RANGE_OFF .. RANGE_OFF+RANGE_LEN]`. -/
def execCrc8 (s : State) : Answer :=
  let o := s.rangeOff.toNat
  let n := s.rangeLen.toNat
  if 31 < o + n then .next (raise .invalidArgument s)
  else onAccess (readFb s o n) fun bs => .next (done (crc8 s.cfg bs).toNat s)

end Sys2Proof.Machine
end

