-- ==== Sys2Proof/Machine/Codec.lean ====
section
/-! DEFINITION. The codec unit (41_frame_codec.md): ENCODE, DECODE, DECODE.C. -/

namespace Sys2Proof.Machine

/-- `x[LEN] <- n` at the end of an ENCODE (R121, R126). -/
def setLen (n : Nat) (s : State) : State := { s with len := BitVec.ofNat 8 n }

/-- The message registers of a decoded frame (R136); the payload is `writeMd`'s. -/
def setMessage (typeId opcode dataLen crc : Byte) (s : State) : State :=
  { s with mTypeId := typeId, mOpcode := opcode, mDataLen := dataLen, mCrc := crc }

/-- ENCODE (R121), its checks in the order of R125. -/
def execEncode (s : State) : Answer :=
  if 31 < s.cap.toNat then .next (raise .invalidArgument s)
  else
    let n := s.mDataLen.toNat
    if 27 < n then .next (raise .payloadTooLarge s)
    else if s.cap.toNat < 4 + n then .next (raise .bufferTooSmall s)
    else
      onAccess (readMd s 0 n) fun payload =>
      onAccess (writeFb s 0 ([s.mTypeId, s.mOpcode, s.mDataLen] ++ payload)) fun s1 =>
      onAccess (readFb s1 0 (3 + n)) fun covered =>
      onAccess (writeFb s1 (3 + n) [crc8 s.cfg covered]) fun s2 =>
      .next (done (4 + n) (setLen (4 + n) s2))

/-- R130: parse and verify the frame in FB; `ctx` is the `C` bit of the command byte ("Context supplied").
The checks stand in the order of R135, each before the first byte it guards is read (20_memory.md R59). -/
def decodeFrame (ctx : Bool) (s : State) : Answer :=
  let L := s.len.toNat
  if 31 < L then .next (raise .invalidArgument s)
  else if L < 4 then .next (raise .frameTooShort s)
  else
    onAccess (readFbByte s 2) fun n =>
    if L < 4 + n.toNat then .next (raise .malformedLength s)
    else
      onAccess (readFb s 0 (3 + n.toNat)) fun covered =>
      onAccess (readFbByte s (3 + n.toNat)) fun recv =>
      if crc8 s.cfg covered ≠ recv then
        .next (raise .crcMismatch (if ctx then noteCrcError s else s))
      else
        onAccess (readFbByte s 0) fun typeId =>
        onAccess (readFbByte s 1) fun opcode =>
        onAccess (readFb s 3 n.toNat) fun payload =>
        onAccess (writeMd s 0 payload) fun s1 =>
        let s2 := setMessage typeId opcode n recv s1
        .next (done (4 + n.toNat) (if ctx then noteCrcOk s2 else s2))

/-- DECODE (R142): without a Context, the statistics untouched. -/
def execDecode (s : State) : Answer := decodeFrame false s

/-- DECODE.C (R143): with the Context supplied, the statistics updated as R137 says. -/
def execDecodeC (s : State) : Answer := decodeFrame true s

end Sys2Proof.Machine
end

