-- ==== Sys2Proof/Machine/Marshal.lean ====
section
/-! DEFINITION. The marshal unit (42_payload_marshal.md): PUT8, PUT16, PUT32, GET8, GET16, GET32. -/

namespace Sys2Proof.Machine

/-- `x[M_DATA_LEN] <- n` at the end of a PUT (R151). -/
def setDataLen (n : Nat) (s : State) : State := { s with mDataLen := BitVec.ofNat 8 n }

/-- `x[VAL] <- v; x[RPOS] <- p` at the end of a GET (R154). -/
def setRead (v : Word) (p : Nat) (s : State) : State := { s with val := v, rpos := BitVec.ofNat 8 p }

/-- PUTw with k = w / 8 (R151): append the low `k` bytes of VAL at M_DATA_LEN. -/
def putBytes (k : Nat) (s : State) : Answer :=
  let d := s.mDataLen.toNat
  if 27 < d + k then .next (raise .marshalRefused s)
  else onAccess (writeMd s d (leBytes s.val k)) fun s1 => .next (done (d + k) (setDataLen (d + k) s1))

/-- GETw with k = w / 8 (R154): read `k` bytes at RPOS, first held against M_DATA_LEN, then against the array. -/
def getBytes (k : Nat) (s : State) : Answer :=
  let p := s.rpos.toNat
  let n := s.mDataLen.toNat
  if n < p + k then .next (raise .marshalRefused s)
  else if 27 < p + k then .next (raise .marshalRefused s)
  else onAccess (readMd s p k) fun bs => .next (done (p + k) (setRead (leValue bs) (p + k) s))

/-- PUT8 (R162). -/
def execPut8 (s : State) : Answer := putBytes 1 s

/-- PUT16 (R163). -/
def execPut16 (s : State) : Answer := putBytes 2 s

/-- PUT32 (R164). -/
def execPut32 (s : State) : Answer := putBytes 4 s

/-- GET8 (R165). -/
def execGet8 (s : State) : Answer := getBytes 1 s

/-- GET16 (R166). -/
def execGet16 (s : State) : Answer := getBytes 2 s

/-- GET32 (R167). -/
def execGet32 (s : State) : Answer := getBytes 4 s

end Sys2Proof.Machine
end

