-- ==== Sys2Proof/Machine/HostPort.lean ====
section
/-! DEFINITION. The host port (43_host_port.md): RD, WR, and the issue of a command by a write to CMD. -/

namespace Sys2Proof.Machine

/-- A command runs to its end inside the write that started it (R173, R174). -/
def runCommand (c : Command) (s : State) : Answer :=
  match c with
  | .crc8 => execCrc8 s
  | .encode => execEncode s
  | .decode => execDecode s
  | .decodeC => execDecodeC s
  | .put8 => execPut8 s
  | .put16 => execPut16 s
  | .put32 => execPut32 s
  | .get8 => execGet8 s
  | .get16 => execGet16 s
  | .get32 => execGet32 s

/-- The command of a byte written to CMD: a listed one runs (30_encoding.md R78), a reserved one raises
InvalidArgument and nothing else (R79). -/
def runCommandByte (c : Byte) (s : State) : Answer :=
  match Command.ofByte c with
  | some cmd => runCommand cmd s
  | none => .next (raise .invalidArgument s)

/-- RD reg (R170): the value goes to the host; no register, array or flag changes. -/
def execRd (reg : Byte) (s : State) : Answer := .next (returnToHost (readNumber s reg) s)

/-- WR reg, value (R171): CMD starts a command, an RW register is stored to, all else ignores the write. -/
def execWr (reg : Byte) (value : Word) (s : State) : Answer :=
  match regOfNumber reg with
  | some r =>
    match regAccess r with
    | .wt => runCommandByte (commandByte value) s
    | .rw => .next (writeReg s value r)
    | .ro => .next s
  | none => .next s

end Sys2Proof.Machine
end

