-- ==== Sys2Proof/Machine/Dispatch.lean ====
section
/-! DEFINITION. One arm per constructor of Instr, each a direct call of its meaning. -/

namespace Sys2Proof.Machine

def exec (i : Instr) (s : State) : Host.Outcome State Fault Refusal :=
  match i with
  | .rd reg => Sys2Proof.Machine.execRd reg s
  | .wr reg value => Sys2Proof.Machine.execWr reg value s
  | .crc8 => Sys2Proof.Machine.execCrc8 s
  | .encode => Sys2Proof.Machine.execEncode s
  | .decode => Sys2Proof.Machine.execDecode s
  | .decodeC => Sys2Proof.Machine.execDecodeC s
  | .put8 => Sys2Proof.Machine.execPut8 s
  | .put16 => Sys2Proof.Machine.execPut16 s
  | .put32 => Sys2Proof.Machine.execPut32 s
  | .get8 => Sys2Proof.Machine.execGet8 s
  | .get16 => Sys2Proof.Machine.execGet16 s
  | .get32 => Sys2Proof.Machine.execGet32 s

end Sys2Proof.Machine
end

