-- ==== Sys2Proof/Machine/Step.lean ====
section
/-! DEFINITION. One step: the next host operation, run to completion (43_host_port.md R174). -/

namespace Sys2Proof.Machine

/-- The engine runs the host's next operation, taken off the host's list; with none it is idle (10_state.md R21). -/
def step (s : State) : Host.Outcome State Fault Refusal :=
  match takeHostOp s with
  | some (w, s1) => exec (decodeInstr w) s1
  | none => idle s

/-- `s` with the host about to issue the operation of a table row's bits (log entry 3). -/
def State.withFetchWord (s : State) (nbits w : Nat) : State := putHostOp (tableHostWord nbits w) s

end Sys2Proof.Machine
end

