-- ==== Sys2Proof/Machine/Assembler.lean ====
section
/-! DEFINITION. Host programs: the pseudo-instructions of 30_encoding.md R83 and the host words of a list of operations. -/

namespace Sys2Proof.Machine

/-- `WR base, b0; WR base+1, b1; …`: bytes stored to consecutive register numbers. -/
def writesFrom (base : Nat) : List Byte → List Instr
  | [] => []
  | b :: bs => .wr (BitVec.ofNat 8 base) (b.setWidth 32) :: writesFrom (base + 1) bs

/-- `LDFB j, b0 … b(n-1)`; requires `j + n <= 31` (R83). -/
def ldfb (j : Nat) (bs : List Byte) : Option (List Instr) :=
  if j + bs.length ≤ fbSize then some (writesFrom (0x40 + j) bs) else none

/-- `LDMSG t, o, [d0 … d(n-1)]`; requires `n <= 27` (R83). -/
def ldmsg (t o : Byte) (ds : List Byte) : Option (List Instr) :=
  if ds.length ≤ maxPayload then
    some ([.wr 0x10 (t.setWidth 32), .wr 0x11 (o.setWidth 32), .wr 0x12 (BitVec.ofNat 32 ds.length)]
      ++ writesFrom 0x20 ds)
  else none

/-- `RANGE o, n` (R83). -/
def rangeOps (o n : Byte) : List Instr := [.wr 0x05 (o.setWidth 32), .wr 0x06 (n.setWidth 32)]

/-- `PUT8 v`, `PUT16 v`, `PUT32 v`: `WR VAL, v` and the bare command (R83). -/
def putValueOps (put : Command) (v : Word) : List Instr := [.wr 0x08 v, put.toInstr]

/-- The host words of a program (R81). -/
def assemble (prog : List Instr) : List HostWord := prog.map encodeInstr

/-- Host operations issued one after the other, each complete before the next (20_memory.md R61). -/
def runOps : List Instr → State → Answer
  | [], s => .next s
  | i :: rest, s =>
    match exec i s with
    | .next s1 => runOps rest s1
    | .fault f => .fault f
    | .refused r => .refused r

end Sys2Proof.Machine
end

