-- ==== Sys2Proof/Machine/Environment.lean ====
section
/-! DEFINITION. The software around the engine (44_environment.md): host functions over engine operations. No step of the engine uses this file; callbacks are names (log entry 15). -/

namespace Sys2Proof.Machine

/-- `role`, fixed at initialization (R181). -/
inductive Role where
  | controller
  | peripheral
  deriving DecidableEq, Repr

/-- `HandlerEntry` (R183); a callback and its user data are names. -/
structure HandlerEntry where
  opcode : Byte
  callback : Nat
  userData : Nat
  deriving DecidableEq, Repr

/-- The `Context` (R181) less the two statistics, which the engine holds; the two Context-wide callbacks stand beside it. -/
structure Context where
  role : Role
  address : Byte
  handlers : List HandlerEntry
  requestedOpcode : Byte
  onReceive : Option Nat
  onRequest : Bool
  deriving DecidableEq, Repr

/-- A message a reply callback fills in: `data_len` as it says, and the bytes of `data`. -/
structure Message where
  typeId : Byte
  opcode : Byte
  dataLen : Byte
  data : List Byte
  deriving DecidableEq, Repr

/-- The decoded message handed to the generic callback (R188), every field of the Message of 00_scope.md
R12: the header, the `data_len` meaningful bytes of `data`, the verified `crc` (41_frame_codec.md R136) and
`source_address`. -/
structure DecodedMessage where
  typeId : Byte
  opcode : Byte
  dataLen : Byte
  payload : List Byte
  crc : Byte
  sourceAddress : Byte
  deriving DecidableEq, Repr

/-- A call the receive path makes (R188). -/
inductive Call where
  | generic (callback : Nat) (message : DecodedMessage)
  | handler (callback : Nat) (opcode : Byte) (payload : List Byte) (payloadLen userData : Nat)
  deriving DecidableEq, Repr

/-- What `handle_receive` leaves: the context, the engine, the result code and the calls made, in order. -/
structure Received where
  context : Context
  engine : State
  result : Byte
  calls : List Call
  deriving DecidableEq, Repr

/-- What `build_reply` leaves: the engine, the result code and the bytes of the reply. -/
structure Replied where
  engine : State
  result : Byte
  frame : List Byte
  deriving DecidableEq, Repr

/-- What `scan` leaves: the engine and each found address with its `type_id` (R194). -/
structure Scanned where
  engine : State
  found : List (Byte × Byte)
  deriving DecidableEq, Repr

/-- Go on from the state a host sequence reached. -/
def andThen {τ : Type} (o : Answer) (k : State → Host.Outcome τ Fault Refusal) :
    Host.Outcome τ Fault Refusal :=
  match o with
  | .next s => k s
  | .fault f => .fault f
  | .refused r => .refused r

/-! ### Context and handler table -/

/-- `init(ctx, role, address)` (R182, 70_reset_and_hazards.md R245): `requested_opcode` 0 and an empty
table; the engine's share of it is reset. DESIGN CHOICE: every 8-bit address is taken and none is checked, which
91_not_in_source.md N18 leaves open (log entry 21). -/
def contextInit (role : Role) (address : Byte) : Context :=
  { role := role, address := address, handlers := [], requestedOpcode := 0, onReceive := none, onRequest := false }

/-- `register` (R184) with a table of `slots` entries (`HANDLER_SLOTS`, OPEN, decision D27). DESIGN CHOICE:
total arguments, no InvalidArgument (R200, log entry 20). -/
def registerHandler (slots : Nat) (ctx : Context) (e : HandlerEntry) : Except Status Context :=
  if ctx.handlers.any (fun h => h.opcode == e.opcode) then
    .ok { ctx with handlers := ctx.handlers.map (fun h => if h.opcode = e.opcode then e else h) }
  else if ctx.handlers.length < slots then .ok { ctx with handlers := ctx.handlers ++ [e] }
  else .error .handlerTableFull

/-- `unregister` (R185): always succeeds, a no-op where there is no entry. -/
def unregisterHandler (ctx : Context) (opcode : Byte) : Context :=
  { ctx with handlers := ctx.handlers.filter (fun h => h.opcode != opcode) }

/-- The entry for an opcode. -/
def findHandler (ctx : Context) (opcode : Byte) : Option HandlerEntry :=
  ctx.handlers.find? (fun h => h.opcode == opcode)

/-! ### Receive path -/

/-- The host places a received frame: its first 31 bytes into FB and their number into LEN (log entry 16). -/
def loadFrameOps (frame : List Byte) : List Instr :=
  writesFrom 0x40 (frame.take fbSize) ++ [.wr 0x03 (BitVec.ofNat 32 (min frame.length fbSize))]

/-- The payload of the decoded message. -/
def decodedPayload (s : State) : List Byte := s.mData.readBytes 0 s.mDataLen.toNat

/-- The message the engine holds, as software sees it (00_scope.md R12). -/
def decodedMessage (s : State) : DecodedMessage :=
  { typeId := s.mTypeId, opcode := s.mOpcode, dataLen := s.mDataLen, payload := decodedPayload s
    crc := s.mCrc, sourceAddress := s.mSrcAddr }

/-- The calls for an ordinary message (R188): the generic callback first, then the handler of its opcode. -/
def dispatchCalls (ctx : Context) (s : State) : List Call :=
  (match ctx.onReceive with
    | some cb => [Call.generic cb (decodedMessage s)]
    | none => []) ++
  (match findHandler ctx s.mOpcode with
    | some h => [Call.handler h.callback s.mOpcode (decodedPayload s) s.mDataLen.toNat h.userData]
    | none => [])

/-- What follows a decoded frame: SET_REPLY is intercepted (R187), any other message dispatched (R188).
Whether `source_address` is set for a SET_REPLY frame the spec leaves open (R189); DESIGN CHOICE: `M_SRC_ADDR`
is not written there (log entry 19). -/
def receiveMessage (ctx : Context) (s : State) : Host.Outcome Received Fault Refusal :=
  if s.mOpcode = setReply then
    .next { context := if s.mDataLen = 0 then ctx else { ctx with requestedOpcode := s.mData.readByte 0 }
            engine := s, result := Status.ok.code, calls := [] }
  else
    andThen (exec (.wr 0x14 (ctx.address.setWidth 32)) s) fun s1 =>
      .next { context := ctx, engine := s1, result := Status.ok.code, calls := dispatchCalls ctx s1 }

/-- `handle_receive` (R186): Peripheral only; a DECODE.C, whose error is propagated with no call made.
DESIGN CHOICE: its arguments are total values, so the InvalidArgument that R200 gives null or invalid pointers
never arises here (log entry 20). -/
def handleReceive (ctx : Context) (frame : List Byte) (s : State) : Host.Outcome Received Fault Refusal :=
  match ctx.role with
  | .controller => .next { context := ctx, engine := s, result := Status.wrongRole.code, calls := [] }
  | .peripheral =>
    andThen (runOps (loadFrameOps frame ++ [.decodeC]) s) fun s1 =>
      if s1.status = Status.ok.code then receiveMessage ctx s1
      else .next { context := ctx, engine := s1, result := s1.status, calls := [] }

/-! ### Reply path -/

/-- The host writes a message into the message registers (43_host_port.md R175). -/
def loadMessageOps (m : Message) : List Instr :=
  [.wr 0x10 (m.typeId.setWidth 32), .wr 0x11 (m.opcode.setWidth 32), .wr 0x12 (m.dataLen.setWidth 32)]
    ++ writesFrom 0x20 (m.data.take maxPayload)

/-- `build_reply` (R190) into a buffer of `capacity` bytes; `reply` is what the "on request" callback
answers from `requested_opcode`, which it only reads (90_conflicts.md C6). DESIGN CHOICE: total arguments, so
InvalidArgument comes only from the ENCODE (R200, log entry 20). -/
def buildReply (ctx : Context) (reply : Byte → Message) (capacity : Byte) (s : State) :
    Host.Outcome Replied Fault Refusal :=
  match ctx.role with
  | .controller => .next { engine := s, result := Status.wrongRole.code, frame := [] }
  | .peripheral =>
    if ctx.onRequest then
      andThen (runOps (loadMessageOps (reply ctx.requestedOpcode) ++ [.wr 0x04 (capacity.setWidth 32), .encode]) s)
        fun s1 =>
          .next { engine := s1, result := s1.status
                  frame := if s1.status = Status.ok.code then s1.fb.readBytes 0 s1.result.toNat else [] }
    else .next { engine := s, result := Status.ok.code, frame := [] }

/-! ### Bus scanner -/

/-- The candidate addresses `[low, high]` in rising order (R193). -/
def scanAddresses (low high : Byte) : List Byte :=
  (List.range (high.toNat + 1 - low.toNat)).map (fun i => BitVec.ofNat 8 (low.toNat + i))

/-- `scan` over a list of addresses (R193, R194). `acks a`: the write probe at `a` succeeds; `answers a`:
the bytes a read at `a` returns, of which at most 31 are asked for; `accept`: `STRICT_ACCEPT`, a predicate
on the decoded Message (00_scope.md R7), constantly true when not strict (OPEN, decision D28; log entry 17).
DESIGN CHOICE: its `source_address` is the one `M_SRC_ADDR` holds, which a scan does not write (log entry 17). -/
def scan (acks : Byte → Bool) (answers : Byte → List Byte) (accept : DecodedMessage → Bool) :
    List Byte → State → Host.Outcome Scanned Fault Refusal
  | [], s => .next { engine := s, found := [] }
  | a :: rest, s =>
    if acks a && !(answers a).isEmpty then
      andThen (runOps (loadFrameOps ((answers a).take fbSize) ++ [.decode]) s) fun s1 =>
        match scan acks answers accept rest s1 with
        | .next r =>
          .next { r with
            found :=
              if s1.status = Status.ok.code ∧ accept (decodedMessage s1) = true then
                (a, s1.mTypeId) :: r.found
              else r.found }
        | .fault f => .fault f
        | .refused r => .refused r
    else scan acks answers accept rest s

end Sys2Proof.Machine
end

