-- ==== Sys2Proof/Safety.lean ====
section
/-! DEFINITION. The words claims are stated in: legal statuses, the engine's invariant, tables, bit flips, valid frames, marshalled fields. -/

namespace Sys2Proof.Machine

/-! ### Safe states -/

/-- The codes the engine itself writes to STATUS (10_state.md R28). -/
def engineStatusCodes : List Byte := [0x00, 0x01, 0x02, 0x03, 0x04, 0x05, 0x06, 0xFF]

/-- The invariant of the engine: both arrays in canonical form and inside their ranges (20_memory.md R50),
STATUS one of the codes the engine writes (R28), RESULT 0 after every error (R29, 60_exceptions.md R210). -/
def EngineInvariant (s : State) : Prop :=
  s.mData.wf 27 = true ∧ s.fb.wf 31 = true ∧ s.status ∈ engineStatusCodes ∧
    (s.status ≠ 0x00 → s.result = 0x00)

/-- The reserved register numbers of 10_state.md R33. -/
abbrev ReservedNumber (n : Byte) : Prop :=
  (0x0B ≤ n ∧ n ≤ 0x0F) ∨ (0x15 ≤ n ∧ n ≤ 0x1F) ∨ (0x3B ≤ n ∧ n ≤ 0x3F) ∨ 0x5F ≤ n

/-- The reserved command bytes of 30_encoding.md R79. -/
abbrev ReservedCommandByte (b : Byte) : Prop :=
  b = 0x00 ∨ b = 0x07 ∨ (0x0B ≤ b ∧ b ≤ 0x12) ∨ 0x14 ≤ b

/-- The operation issues command `c`: it is the command, or a write to CMD whose low byte is the
command's (43_host_port.md R173). -/
def Issues (i : Instr) (c : Command) : Prop :=
  i = c.toInstr ∨ ∃ v : Word, i = .wr 0x00 v ∧ commandByte v = c.byte

/-! ### Checksums -/

/-- The byte table of 40_crc.md R103, rows in order. -/
def crcByteTable : List Byte :=
  [0x00, 0x07, 0x0E, 0x09, 0x1C, 0x1B, 0x12, 0x15, 0x38, 0x3F, 0x36, 0x31, 0x24, 0x23, 0x2A, 0x2D] ++
  [0x70, 0x77, 0x7E, 0x79, 0x6C, 0x6B, 0x62, 0x65, 0x48, 0x4F, 0x46, 0x41, 0x54, 0x53, 0x5A, 0x5D] ++
  [0xE0, 0xE7, 0xEE, 0xE9, 0xFC, 0xFB, 0xF2, 0xF5, 0xD8, 0xDF, 0xD6, 0xD1, 0xC4, 0xC3, 0xCA, 0xCD] ++
  [0x90, 0x97, 0x9E, 0x99, 0x8C, 0x8B, 0x82, 0x85, 0xA8, 0xAF, 0xA6, 0xA1, 0xB4, 0xB3, 0xBA, 0xBD] ++
  [0xC7, 0xC0, 0xC9, 0xCE, 0xDB, 0xDC, 0xD5, 0xD2, 0xFF, 0xF8, 0xF1, 0xF6, 0xE3, 0xE4, 0xED, 0xEA] ++
  [0xB7, 0xB0, 0xB9, 0xBE, 0xAB, 0xAC, 0xA5, 0xA2, 0x8F, 0x88, 0x81, 0x86, 0x93, 0x94, 0x9D, 0x9A] ++
  [0x27, 0x20, 0x29, 0x2E, 0x3B, 0x3C, 0x35, 0x32, 0x1F, 0x18, 0x11, 0x16, 0x03, 0x04, 0x0D, 0x0A] ++
  [0x57, 0x50, 0x59, 0x5E, 0x4B, 0x4C, 0x45, 0x42, 0x6F, 0x68, 0x61, 0x66, 0x73, 0x74, 0x7D, 0x7A] ++
  [0x89, 0x8E, 0x87, 0x80, 0x95, 0x92, 0x9B, 0x9C, 0xB1, 0xB6, 0xBF, 0xB8, 0xAD, 0xAA, 0xA3, 0xA4] ++
  [0xF9, 0xFE, 0xF7, 0xF0, 0xE5, 0xE2, 0xEB, 0xEC, 0xC1, 0xC6, 0xCF, 0xC8, 0xDD, 0xDA, 0xD3, 0xD4] ++
  [0x69, 0x6E, 0x67, 0x60, 0x75, 0x72, 0x7B, 0x7C, 0x51, 0x56, 0x5F, 0x58, 0x4D, 0x4A, 0x43, 0x44] ++
  [0x19, 0x1E, 0x17, 0x10, 0x05, 0x02, 0x0B, 0x0C, 0x21, 0x26, 0x2F, 0x28, 0x3D, 0x3A, 0x33, 0x34] ++
  [0x4E, 0x49, 0x40, 0x47, 0x52, 0x55, 0x5C, 0x5B, 0x76, 0x71, 0x78, 0x7F, 0x6A, 0x6D, 0x64, 0x63] ++
  [0x3E, 0x39, 0x30, 0x37, 0x22, 0x25, 0x2C, 0x2B, 0x06, 0x01, 0x08, 0x0F, 0x1A, 0x1D, 0x14, 0x13] ++
  [0xAE, 0xA9, 0xA0, 0xA7, 0xB2, 0xB5, 0xBC, 0xBB, 0x96, 0x91, 0x98, 0x9F, 0x8A, 0x8D, 0x84, 0x83] ++
  [0xDE, 0xD9, 0xD0, 0xD7, 0xC2, 0xC5, 0xCC, 0xCB, 0xE6, 0xE1, 0xE8, 0xEF, 0xFA, 0xFD, 0xF4, 0xF3]

/-- The nibble table of 40_crc.md R102. -/
def crcNibbleTable : List Byte :=
  [0x00, 0x07, 0x0E, 0x09, 0x1C, 0x1B, 0x12, 0x15, 0x38, 0x3F, 0x36, 0x31, 0x24, 0x23, 0x2A, 0x2D]

/-- One nibble of the nibble-table form (R102). -/
def nibbleStep (c : Byte) : Byte := crcNibbleTable.getD (c >>> 4).toNat 0 ^^^ (c <<< 4)

/-- `bs` with bit `k` flipped, bits numbered from bit 0 of the first byte. -/
def flipBit (bs : List Byte) (k : Nat) : List Byte :=
  bs.modify (k / 8) (fun b => b ^^^ (1#8 <<< (k % 8)))

/-- Property SINGLE-BIT of a checksum function (40_crc.md R105): one bit flipped anywhere in a sequence
followed by its checksum, and the checksum no longer agrees. -/
def SingleBit (f : List Byte → Byte) : Prop :=
  ∀ (bs : List Byte) (k : Nat), k < 8 * (bs.length + 1) →
    ∀ (bs' : List Byte) (c' : Byte), flipBit (bs ++ [f bs]) k = bs' ++ [c'] → f bs' ≠ c'

/-! ### Messages and frames -/

/-- What the message registers hold: the header bytes and the meaningful payload (10_state.md R24, R25). -/
def messageOf (s : State) : Byte × Byte × Byte × List Byte :=
  (s.mTypeId, s.mOpcode, s.mDataLen, s.mData.readBytes 0 s.mDataLen.toNat)

/-- The bytes at which DECODE and DECODE.C read FB (20_memory.md R59). -/
def DecodeReads (s : State) (j : Nat) : Prop :=
  4 ≤ s.len.toNat ∧ s.len.toNat ≤ 31 ∧
    (j = 2 ∨ (4 + (s.fb.readByte 2).toNat ≤ s.len.toNat ∧ j < 4 + (s.fb.readByte 2).toNat))

/-- A buffer of at most 31 bytes that begins with a frame whose CRC agrees (30_encoding.md R72, R73). -/
def validFrame (f : List Byte → Byte) (bs : List Byte) : Bool :=
  let n := (bs.getD 2 0).toNat
  decide (4 ≤ bs.length) && decide (bs.length ≤ 31) && decide (4 + n ≤ bs.length) &&
    (f (bs.take (3 + n)) == bs.getD (3 + n) 0)

/-- The payload of a frame (R70). -/
def framePayload (bs : List Byte) : List Byte := (bs.drop 3).take (bs.getD 2 0).toNat

/-- The Message a valid frame decodes to, with a source address (R70, 41_frame_codec.md R136). -/
def frameMessage (source : Byte) (bs : List Byte) : DecodedMessage :=
  { typeId := bs.getD 0 0, opcode := bs.getD 1 0, dataLen := bs.getD 2 0, payload := framePayload bs
    crc := bs.getD (3 + (bs.getD 2 0).toNat) 0, sourceAddress := source }

/-! ### Marshalled fields -/

/-- A width the marshal unit provides (42_payload_marshal.md R160). -/
inductive MarshalWidth where
  | w8
  | w16
  | w32
  deriving DecidableEq, Repr

/-- The byte count k of a width (R151, R154). -/
def MarshalWidth.bytes : MarshalWidth → Nat
  | .w8 => 1
  | .w16 => 2
  | .w32 => 4

/-- The PUT of a width. -/
def MarshalWidth.put : MarshalWidth → Command
  | .w8 => .put8
  | .w16 => .put16
  | .w32 => .put32

/-- The GET of a width. -/
def MarshalWidth.get : MarshalWidth → Command
  | .w8 => .get8
  | .w16 => .get16
  | .w32 => .get32

/-- `v mod 2^w` as a 32-bit value. -/
def MarshalWidth.truncate (w : MarshalWidth) (v : Word) : Word :=
  BitVec.ofNat 32 (v.toNat % 2 ^ (8 * w.bytes))

/-- The host operations that build a payload field by field (R152). -/
def buildOps (fields : List (MarshalWidth × Word)) : List Instr :=
  .wr 0x12 0 :: fields.flatMap (fun p => putValueOps p.1.put p.2)

/-- The host operations that read it back field by field (R155). -/
def takeApartOps (fields : List (MarshalWidth × Word)) : List Instr :=
  .wr 0x07 0 :: fields.flatMap (fun p => [p.1.get.toInstr, .rd 0x08])

end Sys2Proof.Machine
end

