-- ==== Sys2Proof/Certificates/Slice0/Obligations.lean ====
section
/-! DEFINITION. The statements for the provers. -/

open Sys2Proof Sys2Proof.Machine

/-! ### Encodings -/

/-- R81, R83: decoding the host word of a well-formed operation (canonical spelling: log entry 8) gives it back, every
operand at every value. -/
def Obligations.DecodeEncodeAgree : Prop :=
  ∀ i : Instr, i.WellFormed → decodeInstr (encodeInstr i) = i

/-- R81: every 41-bit word stands for one operation in canonical spelling (log entry 8); decoding looks only at the bits
that the encoder writes, so a decoded word's own encoding decodes to the same operation. -/
def Obligations.EveryHostWordDecodes : Prop :=
  ∀ w : HostWord, (decodeInstr w).WellFormed ∧ decodeInstr (encodeInstr (decodeInstr w)) = decodeInstr w

/-- R81, R173: the fields of a host word. `wdata` of a read is ignored, and so are bits 31:8 of a value that
issues a listed command; of every other write no bit is dropped. -/
def Obligations.HostWordFields : Prop :=
  ∀ (reg : Byte) (v : Word),
    decodeInstr (hostWord false reg v) = .rd reg ∧
    (reg ≠ 0x00 → decodeInstr (hostWord true reg v) = .wr reg v) ∧
    (∀ c : Command, commandByte v = c.byte → decodeInstr (hostWord true 0x00 v) = c.toInstr) ∧
    (ReservedCommandByte (commandByte v) → decodeInstr (hostWord true 0x00 v) = .wr 0x00 v)

/-- R78, R79, R84: the command map is complete: ten bytes are listed, and the reserved ones are exactly those
R79 names. -/
def Obligations.CommandMapComplete : Prop :=
  (∀ b : Byte, Command.ofByte b = none ↔ ReservedCommandByte b) ∧
  Command.ofByte 0x01 = some .crc8 ∧ Command.ofByte 0x02 = some .encode ∧
  Command.ofByte 0x03 = some .decode ∧ Command.ofByte 0x13 = some .decodeC ∧
  Command.ofByte 0x04 = some .put8 ∧ Command.ofByte 0x05 = some .put16 ∧ Command.ofByte 0x06 = some .put32 ∧
  Command.ofByte 0x08 = some .get8 ∧ Command.ofByte 0x09 = some .get16 ∧ Command.ofByte 0x0A = some .get32

/-- Host words of 95_test_vectors.md P1 to P3, written out, decode to the operations they stand for. -/
def Obligations.WrittenOutWordsDecode : Prop :=
  decodeInstr 0x11200000002#41 = .wr 0x12 2 ∧ decodeInstr 0x108DDCCBBAA#41 = .wr 0x08 0xDDCCBBAA ∧
  decodeInstr 0x04500000000#41 = .rd 0x45 ∧ decodeInstr 0x10000000002#41 = .encode ∧
  decodeInstr 0x10000000013#41 = .decodeC ∧ decodeInstr 0x10000000005#41 = .put16 ∧
  decodeInstr 0x1000000000A#41 = .get32 ∧ decodeInstr 0x10000000001#41 = .crc8

/-! ### The step -/

/-- R61, R173: a step takes the host's next word off its list and is the meaning of the operation it decodes to.
The list is the model's own field (log entry 3). -/
def Obligations.StepRunsTheNextHostOperation : Prop :=
  ∀ (s : State) (w : HostWord) (rest : List HostWord), s.hostOps = w :: rest →
    step s = exec (decodeInstr w) { s with hostOps := rest }

/-- R21: with nothing issued the engine is idle (the model's choice of a step for it: log entry 4). -/
def Obligations.IdleEngineChangesNothing : Prop :=
  ∀ s : State, s.hostOps = [] → step s = .next s

/-- R14, R50, R174: no operation faults or is refused, in any state: every access of every command is inside its
array, and every step answers a next state. -/
def Obligations.EveryStepAnswersNext : Prop :=
  (∀ (i : Instr) (s : State), ∃ t, exec i s = .next t) ∧ ∀ s : State, ∃ t, step s = .next t

/-- R28, R29, R50: every step keeps the engine's invariant. -/
def Obligations.StepKeepsEngineInvariant : Prop :=
  ∀ s t : State, EngineInvariant s → step s = .next t → EngineInvariant t

/-- The invariant holds after reset, whatever canonical contents the unspecified registers have, and at the
model's own reset state. -/
def Obligations.ResetMeetsEngineInvariant : Prop :=
  (∀ (cfg : Config) (u : PowerOn), u.mData.wf 27 = true → u.fb.wf 31 = true →
    EngineInvariant (State.resetWith cfg u)) ∧ EngineInvariant State.reset

/-- R61: operations issued as a program of host words run one after the other, each complete before the next;
the list of words not yet issued (the model's own, log entry 3) influences none of them. -/
def Obligations.ProgramRunsInOrder : Prop :=
  ∀ (prog : List Instr) (s : State), (∀ i ∈ prog, i.WellFormed) →
    Host.Core.run Sys2Proof.core prog.length { s with hostOps := assemble prog } =
      runOps prog { s with hostOps := [] }

/-- R40: what reset leaves. Nine registers are zero whatever the unspecified ones hold, and those may hold anything. -/
def Obligations.ResetLeaves : Prop :=
  ∀ (cfg : Config) (u : PowerOn),
    let s := State.resetWith cfg u
    s.status = 0x00 ∧ s.result = 0x00 ∧ s.len = 0x00 ∧ s.cap = 0x00 ∧ s.rangeOff = 0x00 ∧
    s.rangeLen = 0x00 ∧ s.rpos = 0x00 ∧ s.crcErrorCount = 0x00000000 ∧ s.lastCrcOk = false ∧
    s.val = u.val ∧ s.mTypeId = u.mTypeId ∧ s.mOpcode = u.mOpcode ∧ s.mDataLen = u.mDataLen ∧
    s.mCrc = u.mCrc ∧ s.mSrcAddr = u.mSrcAddr ∧ s.mData = u.mData ∧ s.fb = u.fb

/-- R41: an ENCODE straight after reset fails, PayloadTooLarge or BufferTooSmall by the arbitrary M_DATA_LEN; R244: a
decode straight after reset is FrameTooShort, and CRC8 checks the empty range. -/
def Obligations.CommandsStraightAfterReset : Prop :=
  ∀ (cfg : Config) (u : PowerOn),
    let s := State.resetWith cfg u
    (27 < u.mDataLen.toNat → exec .encode s = .next { s with status := 0x02, result := 0 }) ∧
    (u.mDataLen.toNat ≤ 27 → exec .encode s = .next { s with status := 0x03, result := 0 }) ∧
    exec .decode s = .next { s with status := 0x04, result := 0 } ∧
    exec .decodeC s = .next { s with status := 0x04, result := 0 } ∧
    exec .crc8 s = .next { s with status := 0x00, result := crc8 cfg [] }

/-! ### The host port -/

/-- R170: a read answers the register's value zero-extended, 0 for CMD and the reserved numbers, and changes
nothing but the list of returned values, the model's own field (log entry 3). -/
def Obligations.ReadRule : Prop :=
  ∀ s : State,
    let reads := fun (n : Byte) (v : Word) => exec (.rd n) s = .next { s with rdLog := s.rdLog ++ [v] }
    reads 0x00 0 ∧ reads 0x01 (s.status.setWidth 32) ∧ reads 0x02 (s.result.setWidth 32) ∧
    reads 0x03 (s.len.setWidth 32) ∧ reads 0x04 (s.cap.setWidth 32) ∧ reads 0x05 (s.rangeOff.setWidth 32) ∧
    reads 0x06 (s.rangeLen.setWidth 32) ∧ reads 0x07 (s.rpos.setWidth 32) ∧ reads 0x08 s.val ∧
    reads 0x09 s.crcErrorCount ∧ reads 0x0A (if s.lastCrcOk = true then 1 else 0) ∧
    reads 0x10 (s.mTypeId.setWidth 32) ∧ reads 0x11 (s.mOpcode.setWidth 32) ∧
    reads 0x12 (s.mDataLen.setWidth 32) ∧ reads 0x13 (s.mCrc.setWidth 32) ∧ reads 0x14 (s.mSrcAddr.setWidth 32) ∧
    (∀ i : Nat, i < 27 → reads (BitVec.ofNat 8 (0x20 + i)) ((s.mData.readByte i).setWidth 32)) ∧
    (∀ j : Nat, j < 31 → reads (BitVec.ofNat 8 (0x40 + j)) ((s.fb.readByte j).setWidth 32)) ∧
    ∀ n : Byte, ReservedNumber n → reads n 0

/-- R171, R173, R79: a write stores the low bits to an RW register, is ignored at a read-only or reserved number, and at
CMD executes the command of its low byte, the reserved command of R79 where that byte is not listed. -/
def Obligations.WriteRule : Prop :=
  ∀ (s : State) (v : Word),
    let b : Byte := v.setWidth 8
    exec (.wr 0x03 v) s = .next { s with len := b } ∧ exec (.wr 0x04 v) s = .next { s with cap := b } ∧
    exec (.wr 0x05 v) s = .next { s with rangeOff := b } ∧ exec (.wr 0x06 v) s = .next { s with rangeLen := b } ∧
    exec (.wr 0x07 v) s = .next { s with rpos := b } ∧ exec (.wr 0x08 v) s = .next { s with val := v } ∧
    exec (.wr 0x10 v) s = .next { s with mTypeId := b } ∧ exec (.wr 0x11 v) s = .next { s with mOpcode := b } ∧
    exec (.wr 0x12 v) s = .next { s with mDataLen := b } ∧ exec (.wr 0x13 v) s = .next { s with mCrc := b } ∧
    exec (.wr 0x14 v) s = .next { s with mSrcAddr := b } ∧
    (∀ i : Nat, i < 27 → ∃ m, exec (.wr (BitVec.ofNat 8 (0x20 + i)) v) s = .next { s with mData := m } ∧
      ∀ a, m.readByte a = if a = i then b else s.mData.readByte a) ∧
    (∀ j : Nat, j < 31 → ∃ m, exec (.wr (BitVec.ofNat 8 (0x40 + j)) v) s = .next { s with fb := m } ∧
      ∀ a, m.readByte a = if a = j then b else s.fb.readByte a) ∧
    (∀ n ∈ [0x01, 0x02, 0x09, 0x0A], exec (.wr n v) s = .next s) ∧
    (∀ n : Byte, ReservedNumber n → exec (.wr n v) s = .next s) ∧
    (∀ c : Command, b = c.byte → exec (.wr 0x00 v) s = exec c.toInstr s) ∧
    (ReservedCommandByte b → exec (.wr 0x00 v) s = .next { s with status := 0x01, result := 0x00 })

/-- R55, R61, R171: after a write to any number but CMD, that register reads as the low bits written if it is RW, and
every other number reads as before. -/
def Obligations.WrittenRegisterReadsBack : Prop :=
  ∀ (s t : State) (n : Byte) (v : Word), n ≠ 0x00 → exec (.wr n v) s = .next t →
    (∀ r : Reg, regOfNumber n = some r → regAccess r = .rw →
      readNumber t n = (v.setWidth (regWidth r)).setWidth 32) ∧
    (∀ r : Reg, regOfNumber n = some r → regAccess r ≠ .rw → readNumber t n = readNumber s n) ∧
    ∀ m : Byte, m ≠ n → readNumber t m = readNumber s m

/-! ### The CRC unit -/

/-- R107: the command CRC8. -/
def Obligations.Crc8CommandRule : Prop :=
  Command.ofByte 0x01 = some .crc8 ∧ ∀ s : State,
    let o := s.rangeOff.toNat
    let n := s.rangeLen.toNat
    (31 < o + n → exec .crc8 s = .next { s with status := 0x01, result := 0x00 }) ∧
    (o + n ≤ 31 → exec .crc8 s =
      .next { s with status := 0x00, result := crc8 s.cfg (s.fb.readBytes o n) })

/-- R107: bytes of FB outside the range do not influence CRC8. -/
def Obligations.Crc8ReadsOnlyItsRange : Prop :=
  ∀ (s t : State) (fb' : Memory),
    (∀ j, s.rangeOff.toNat ≤ j → j < s.rangeOff.toNat + s.rangeLen.toNat → fb'.readByte j = s.fb.readByte j) →
    exec .crc8 s = .next t → exec .crc8 { s with fb := fb' } = .next { t with fb := fb' }

/-- R104: the laws of the default function. -/
def Obligations.DefaultCrcLaws : Prop :=
  crc8Default [] = 0x00 ∧ (∀ n : Nat, crc8Default (List.replicate n 0x00) = 0x00) ∧
  (∀ s : List Byte, crc8Default (0x00 :: s) = crc8Default s) ∧
  crc8Default [0x01] = 0x07 ∧ crc8Default [0x01, 0x00] = 0x15 ∧
  (∀ a b : List Byte, a.length = b.length →
    crc8Default (List.zipWith (fun x y => x ^^^ y) a b) = crc8Default a ^^^ crc8Default b) ∧
  (∀ s : List Byte, crc8Default (s ++ [crc8Default s]) = 0x00) ∧
  crc8Default [0x31, 0x32, 0x33, 0x34, 0x35, 0x36, 0x37, 0x38, 0x39] = 0xF4

/-- R102: the byte-table and the nibble-table forms equal the bitwise definition on every input. -/
def Obligations.TableFormsEqualBitwise : Prop :=
  ∀ bs : List Byte,
    bs.foldl (fun c b => crcByteTable.getD (c ^^^ b).toNat 0) 0x00 = crc8Default bs ∧
    bs.foldl (fun c b => nibbleStep (nibbleStep (c ^^^ b))) 0x00 = crc8Default bs ∧
    crcNibbleTable = crcByteTable.take 16

/-- R103: the byte table lists CRC8 of each single byte. -/
def Obligations.ByteTableOfDefaultCrc : Prop :=
  crcByteTable.length = 256 ∧ ∀ b : Byte, crcByteTable.getD b.toNat 0 = crc8Default [b]

/-- R105: the default function has property SINGLE-BIT. -/
def Obligations.DefaultCrcDetectsSingleBit : Prop := SingleBit crc8Default

/-! ### The codec unit -/

/-- R121 to R126: ENCODE, its checks in order, the frame it writes and what it leaves. -/
def Obligations.EncodeRule : Prop :=
  Command.ofByte 0x02 = some .encode ∧ ∀ s : State,
    let n := s.mDataLen.toNat
    let cap := s.cap.toNat
    (31 < cap → exec .encode s = .next { s with status := 0x01, result := 0x00 }) ∧
    (cap ≤ 31 → 27 < n → exec .encode s = .next { s with status := 0x02, result := 0x00 }) ∧
    (cap ≤ 31 → n ≤ 27 → cap < 4 + n → exec .encode s = .next { s with status := 0x03, result := 0x00 }) ∧
    (cap ≤ 31 → n ≤ 27 → 4 + n ≤ cap → ∃ fb',
      exec .encode s = .next { s with
        fb := fb', len := BitVec.ofNat 8 (4 + n), status := 0x00, result := BitVec.ofNat 8 (4 + n) } ∧
      fb'.readByte 0 = s.mTypeId ∧ fb'.readByte 1 = s.mOpcode ∧ fb'.readByte 2 = s.mDataLen ∧
      (∀ i, i < n → fb'.readByte (3 + i) = s.mData.readByte i) ∧
      fb'.readByte (3 + n) =
        crc8 s.cfg ([s.mTypeId, s.mOpcode, s.mDataLen] ++ s.mData.readBytes 0 n) ∧
      ∀ a, 4 + n ≤ a → fb'.readByte a = s.fb.readByte a)

/-- R127: ENCODE's outputs are a function of CAP, the header registers and the meaningful payload alone; with
M_DATA_LEN over 27 no byte of M_DATA is read. -/
def Obligations.EncodeReadsOnlyItsInputs : Prop :=
  ∀ (s s' t t' : State), s'.cfg = s.cfg → s'.cap = s.cap → s'.mTypeId = s.mTypeId → s'.mOpcode = s.mOpcode →
    s'.mDataLen = s.mDataLen →
    (s.mDataLen.toNat ≤ 27 → ∀ i, i < s.mDataLen.toNat → s'.mData.readByte i = s.mData.readByte i) →
    exec .encode s = .next t → exec .encode s' = .next t' →
    t'.status = t.status ∧ t'.result = t.result ∧
    (t.status = 0x00 → t'.len = t.len ∧
      ∀ a, a < 4 + s.mDataLen.toNat → t'.fb.readByte a = t.fb.readByte a)

/-- R60: ENCODE never writes FB at or above CAP nor at or above 4 + M_DATA_LEN, and on failure no byte of it. -/
def Obligations.EncodeStaysInsideCapacity : Prop :=
  ∀ s t : State, exec .encode s = .next t →
    (∀ a, s.cap.toNat ≤ a → t.fb.readByte a = s.fb.readByte a) ∧
    (∀ a, 4 + s.mDataLen.toNat ≤ a → t.fb.readByte a = s.fb.readByte a) ∧
    (t.status ≠ 0x00 → ∀ a, t.fb.readByte a = s.fb.readByte a)

/-- R142: DECODE, its checks in order and the message it writes; the statistics are never written. -/
def Obligations.DecodeRule : Prop :=
  Command.ofByte 0x03 = some .decode ∧ ∀ s : State,
    let L := s.len.toNat
    let n := (s.fb.readByte 2).toNat
    (31 < L → exec .decode s = .next { s with status := 0x01, result := 0x00 }) ∧
    (L < 4 → exec .decode s = .next { s with status := 0x04, result := 0x00 }) ∧
    (4 ≤ L → L ≤ 31 → L < 4 + n → exec .decode s = .next { s with status := 0x05, result := 0x00 }) ∧
    (4 ≤ L → L ≤ 31 → 4 + n ≤ L → crc8 s.cfg (s.fb.readBytes 0 (3 + n)) ≠ s.fb.readByte (3 + n) →
      exec .decode s = .next { s with status := 0x06, result := 0x00 }) ∧
    (4 ≤ L → L ≤ 31 → 4 + n ≤ L → crc8 s.cfg (s.fb.readBytes 0 (3 + n)) = s.fb.readByte (3 + n) → ∃ md,
      exec .decode s = .next { s with
        mTypeId := s.fb.readByte 0, mOpcode := s.fb.readByte 1, mDataLen := s.fb.readByte 2, mData := md
        mCrc := s.fb.readByte (3 + n), status := 0x00, result := BitVec.ofNat 8 (4 + n) } ∧
      ∀ a, md.readByte a = if a < n then s.fb.readByte (3 + a) else s.mData.readByte a)

/-- R143: DECODE.C, as DECODE with the statistics updated on CrcMismatch and on Ok. -/
def Obligations.DecodeCRule : Prop :=
  Command.ofByte 0x13 = some .decodeC ∧ ∀ s : State,
    let L := s.len.toNat
    let n := (s.fb.readByte 2).toNat
    (31 < L → exec .decodeC s = .next { s with status := 0x01, result := 0x00 }) ∧
    (L < 4 → exec .decodeC s = .next { s with status := 0x04, result := 0x00 }) ∧
    (4 ≤ L → L ≤ 31 → L < 4 + n → exec .decodeC s = .next { s with status := 0x05, result := 0x00 }) ∧
    (4 ≤ L → L ≤ 31 → 4 + n ≤ L → crc8 s.cfg (s.fb.readBytes 0 (3 + n)) ≠ s.fb.readByte (3 + n) →
      exec .decodeC s = .next { s with
        lastCrcOk := false, crcErrorCount := inc32 s.cfg.cntOvf s.crcErrorCount, status := 0x06, result := 0x00 }) ∧
    (4 ≤ L → L ≤ 31 → 4 + n ≤ L → crc8 s.cfg (s.fb.readBytes 0 (3 + n)) = s.fb.readByte (3 + n) → ∃ md,
      exec .decodeC s = .next { s with
        mTypeId := s.fb.readByte 0, mOpcode := s.fb.readByte 1, mDataLen := s.fb.readByte 2, mData := md
        mCrc := s.fb.readByte (3 + n), lastCrcOk := true, status := 0x00, result := BitVec.ofNat 8 (4 + n) } ∧
      ∀ a, md.readByte a = if a < n then s.fb.readByte (3 + a) else s.mData.readByte a)

/-- R135: the first check that fails is the only one reported, the same by both commands: five statuses, never
PayloadTooLarge or BufferTooSmall. -/
def Obligations.DecodeChecksInOrder : Prop :=
  ∀ (s t : State) (i : Instr), i = .decode ∨ i = .decodeC → exec i s = .next t →
    t.status =
      if 31 < s.len.toNat then 0x01
      else if s.len.toNat < 4 then 0x04
      else if s.len.toNat < 4 + (s.fb.readByte 2).toNat then 0x05
      else if crc8 s.cfg (s.fb.readBytes 0 (3 + (s.fb.readByte 2).toNat)) ≠
        s.fb.readByte (3 + (s.fb.readByte 2).toNat) then 0x06
      else 0x00

/-- R59: the bytes at which DECODE and DECODE.C read FB all lie below LEN, and changing any other byte of FB changes
nothing they answer or write. -/
def Obligations.DecodeReadsOnlyTheFrame : Prop :=
  (∀ (s : State) (j : Nat), DecodeReads s j → j < s.len.toNat) ∧
  ∀ (s t : State) (fb' : Memory) (i : Instr), i = .decode ∨ i = .decodeC →
    (∀ j, DecodeReads s j → fb'.readByte j = s.fb.readByte j) →
    exec i s = .next t → exec i { s with fb := fb' } = .next { t with fb := fb' }

/-- R141: a decode leaves FB and LEN as they are, so repeating it gives the same status and message, and each
DECODE.C of a bad frame counts one more error. -/
def Obligations.DecodeMayBeRepeated : Prop :=
  ∀ (s t : State) (i : Instr), i = .decode ∨ i = .decodeC → exec i s = .next t →
    t.fb = s.fb ∧ t.len = s.len ∧
    ∃ u, exec i t = .next u ∧ u.status = t.status ∧ u.result = t.result ∧ messageOf u = messageOf t ∧
      u.mCrc = t.mCrc ∧
      (i = .decodeC → t.status = 0x06 → u.crcErrorCount = inc32 t.cfg.cntOvf t.crcErrorCount)

/-- R138: what ENCODE writes, a decode reads back, for every function CRC8. -/
def Obligations.EncodeThenDecodeGivesTheMessageBack : Prop :=
  ∀ (s : State) (i : Instr), i = .decode ∨ i = .decodeC →
    s.mDataLen.toNat ≤ 27 → 4 + s.mDataLen.toNat ≤ s.cap.toNat → s.cap.toNat ≤ 31 →
    ∃ t u, exec .encode s = .next t ∧ exec i t = .next u ∧ t.status = 0x00 ∧ u.status = 0x00 ∧
      messageOf u = messageOf s ∧ u.mCrc = u.fb.readByte (3 + s.mDataLen.toNat) ∧
      u.len = BitVec.ofNat 8 (4 + s.mDataLen.toNat) ∧ u.result = BitVec.ofNat 8 (4 + s.mDataLen.toNat) ∧
      (i = .decodeC → u.lastCrcOk = true)

/-- R139: one bit of an encoded frame flipped before a DECODE.C. Outside byte 2, the default function and every other
with property SINGLE-BIT detects it; in byte 2, a raised length is MalformedLength with the statistics unchanged, and a lowered one is judged
by the byte that the shorter frame has for its CRC, a truncated message where it agrees. -/
def Obligations.SingleBitCorruption : Prop :=
  ∀ (s t v : State) (j b : Nat), exec .encode s = .next t → t.status = 0x00 →
    j < 4 + s.mDataLen.toNat → b < 8 →
    exec .decodeC { t with fb := t.fb.writeByte j (t.fb.readByte j ^^^ (1#8 <<< b)) } = .next v →
    let n' := (s.mDataLen ^^^ (1#8 <<< b)).toNat
    (j ≠ 2 → s.cfg.crc = .default ∨ SingleBit (crc8 s.cfg) →
      v.status = 0x06 ∧ v.lastCrcOk = false ∧ v.crcErrorCount = inc32 s.cfg.cntOvf s.crcErrorCount) ∧
    (j = 2 → s.mDataLen.toNat < n' →
      v.status = 0x05 ∧ v.lastCrcOk = s.lastCrcOk ∧ v.crcErrorCount = s.crcErrorCount) ∧
    (j = 2 → n' < s.mDataLen.toNat →
      (v.status = if crc8 s.cfg (v.fb.readBytes 0 (3 + n')) = v.fb.readByte (3 + n') then 0x00 else 0x06) ∧
      (v.status = 0x00 → v.mDataLen.toNat = n' ∧ ∀ i, i < n' → v.mData.readByte i = s.mData.readByte i))

/-- R108: the command CRC8 over an encoded frame, and what decides a decode. -/
def Obligations.ChecksumOfAnEncodedFrame : Prop :=
  (∀ s t : State, exec .encode s = .next t → t.status = 0x00 →
    exec .crc8 { t with rangeOff := 0, rangeLen := BitVec.ofNat 8 (3 + s.mDataLen.toNat) } =
      .next { t with
        rangeOff := 0, rangeLen := BitVec.ofNat 8 (3 + s.mDataLen.toNat), status := 0x00
        result := t.fb.readByte (3 + s.mDataLen.toNat) } ∧
    (s.cfg.crc = .default →
      exec .crc8 { t with rangeOff := 0, rangeLen := BitVec.ofNat 8 (4 + s.mDataLen.toNat) } =
        .next { t with
          rangeOff := 0, rangeLen := BitVec.ofNat 8 (4 + s.mDataLen.toNat), status := 0x00, result := 0x00 })) ∧
  ∀ s t : State, exec .decode s = .next t →
    (t.status = 0x00 ↔
      4 ≤ s.len.toNat ∧ s.len.toNat ≤ 31 ∧ 4 + (s.fb.readByte 2).toNat ≤ s.len.toNat ∧
      ∃ u, exec .crc8 { s with rangeOff := 0, rangeLen := BitVec.ofNat 8 (3 + (s.fb.readByte 2).toNat) } = .next u ∧
        u.result = s.fb.readByte (3 + (s.fb.readByte 2).toNat))

/-! ### The marshal unit -/

/-- R162: PUT8. -/
def Obligations.Put8Rule : Prop :=
  Command.ofByte 0x04 = some .put8 ∧ ∀ s : State,
    let d := s.mDataLen.toNat
    (27 < d + 1 → exec .put8 s = .next { s with status := 0xFF, result := 0x00 }) ∧
    (d + 1 ≤ 27 → exec .put8 s = .next { s with
      mData := s.mData.writeByte d (s.val.extractLsb' 0 8)
      mDataLen := BitVec.ofNat 8 (d + 1), status := 0x00, result := BitVec.ofNat 8 (d + 1) })

/-- R163: PUT16, least significant byte first. -/
def Obligations.Put16Rule : Prop :=
  Command.ofByte 0x05 = some .put16 ∧ ∀ s : State,
    let d := s.mDataLen.toNat
    (27 < d + 2 → exec .put16 s = .next { s with status := 0xFF, result := 0x00 }) ∧
    (d + 2 ≤ 27 → exec .put16 s = .next { s with
      mData := (s.mData.writeByte d (s.val.extractLsb' 0 8)).writeByte (d + 1) (s.val.extractLsb' 8 8)
      mDataLen := BitVec.ofNat 8 (d + 2), status := 0x00, result := BitVec.ofNat 8 (d + 2) })

/-- R164: PUT32, least significant byte first. -/
def Obligations.Put32Rule : Prop :=
  Command.ofByte 0x06 = some .put32 ∧ ∀ s : State,
    let d := s.mDataLen.toNat
    (27 < d + 4 → exec .put32 s = .next { s with status := 0xFF, result := 0x00 }) ∧
    (d + 4 ≤ 27 → exec .put32 s = .next { s with
      mData := (((s.mData.writeByte d (s.val.extractLsb' 0 8)).writeByte (d + 1) (s.val.extractLsb' 8 8)).writeByte
        (d + 2) (s.val.extractLsb' 16 8)).writeByte (d + 3) (s.val.extractLsb' 24 8)
      mDataLen := BitVec.ofNat 8 (d + 4), status := 0x00, result := BitVec.ofNat 8 (d + 4) })

/-- R165: GET8, zero-extended. -/
def Obligations.Get8Rule : Prop :=
  Command.ofByte 0x08 = some .get8 ∧ ∀ s : State,
    let p := s.rpos.toNat
    let n := s.mDataLen.toNat
    (min n 27 < p + 1 → exec .get8 s = .next { s with status := 0xFF, result := 0x00 }) ∧
    (p + 1 ≤ min n 27 → exec .get8 s = .next { s with
      val := (s.mData.readByte p).setWidth 32
      rpos := BitVec.ofNat 8 (p + 1), status := 0x00, result := BitVec.ofNat 8 (p + 1) })

/-- R166: GET16, little-endian, zero-extended. -/
def Obligations.Get16Rule : Prop :=
  Command.ofByte 0x09 = some .get16 ∧ ∀ s : State,
    let p := s.rpos.toNat
    let n := s.mDataLen.toNat
    (min n 27 < p + 2 → exec .get16 s = .next { s with status := 0xFF, result := 0x00 }) ∧
    (p + 2 ≤ min n 27 → exec .get16 s = .next { s with
      val := (s.mData.readByte p).setWidth 32 ||| (s.mData.readByte (p + 1)).setWidth 32 <<< 8
      rpos := BitVec.ofNat 8 (p + 2), status := 0x00, result := BitVec.ofNat 8 (p + 2) })

/-- R167: GET32, little-endian. -/
def Obligations.Get32Rule : Prop :=
  Command.ofByte 0x0A = some .get32 ∧ ∀ s : State,
    let p := s.rpos.toNat
    let n := s.mDataLen.toNat
    (min n 27 < p + 4 → exec .get32 s = .next { s with status := 0xFF, result := 0x00 }) ∧
    (p + 4 ≤ min n 27 → exec .get32 s = .next { s with
      val := (s.mData.readByte p).setWidth 32 ||| (s.mData.readByte (p + 1)).setWidth 32 <<< 8 |||
        (s.mData.readByte (p + 2)).setWidth 32 <<< 16 ||| (s.mData.readByte (p + 3)).setWidth 32 <<< 24
      rpos := BitVec.ofNat 8 (p + 4), status := 0x00, result := BitVec.ofNat 8 (p + 4) })

/-- R54, R151: a PUT of any width that ends Ok stores the little-endian bytes of VAL at the old M_DATA_LEN, no other
byte of either array changes, and of the registers only M_DATA_LEN, STATUS and RESULT. -/
def Obligations.PutStoresOnlyItsBytes : Prop :=
  ∀ (w : MarshalWidth) (s t : State), exec w.put.toInstr s = .next t → t.status = 0x00 →
    (∀ a, t.mData.readByte a =
      if s.mDataLen.toNat ≤ a ∧ a < s.mDataLen.toNat + w.bytes then
        s.val.extractLsb' (8 * (a - s.mDataLen.toNat)) 8
      else s.mData.readByte a) ∧
    t = { s with
      mData := t.mData, mDataLen := BitVec.ofNat 8 (s.mDataLen.toNat + w.bytes), status := 0x00
      result := BitVec.ofNat 8 (s.mDataLen.toNat + w.bytes) }

/-- R157: a PUT looks only at the low bits of VAL, a GET only at the bytes of M_DATA it reads, which lie below
M_DATA_LEN. -/
def Obligations.MarshalReadsOnlyItsOperands : Prop :=
  (∀ (w : MarshalWidth) (s t : State) (v' : Word), w.truncate v' = w.truncate s.val →
    exec w.put.toInstr s = .next t → exec w.put.toInstr { s with val := v' } = .next { t with val := v' }) ∧
  ∀ (w : MarshalWidth) (s t : State) (m' : Memory),
    (∀ a, s.rpos.toNat ≤ a → a < s.rpos.toNat + w.bytes → a < s.mDataLen.toNat →
      m'.readByte a = s.mData.readByte a) →
    exec w.get.toInstr s = .next t → exec w.get.toInstr { s with mData := m' } = .next { t with mData := m' }

/-- R158: a value put and got back at its own offset. -/
def Obligations.PutThenGetGivesTheValueBack : Prop :=
  ∀ (w : MarshalWidth) (s : State), s.mDataLen.toNat + w.bytes ≤ 27 →
    ∃ t, runOps [w.put.toInstr, .wr 0x07 (s.mDataLen.setWidth 32), w.get.toInstr] s = .next t ∧
      t.status = 0x00 ∧ t.val = w.truncate s.val ∧
      t.rpos = BitVec.ofNat 8 (s.mDataLen.toNat + w.bytes) ∧
      t.mDataLen = BitVec.ofNat 8 (s.mDataLen.toNat + w.bytes)

/-- R158: across the codec, a payload built by PUTs, encoded, decoded and read by the same sequence of GETs returns
the same values, for every function CRC8. The values are read from the list of returned values, the model's own field
(log entry 3). -/
def Obligations.MarshalAcrossTheCodec : Prop :=
  ∀ (fields : List (MarshalWidth × Word)) (s : State), (fields.map (fun p => p.1.bytes)).sum ≤ 27 →
    ∃ t, runOps (buildOps fields ++ [.wr 0x04 31, .encode, .decode] ++ takeApartOps fields) s = .next t ∧
      t.status = 0x00 ∧ t.rdLog = s.rdLog ++ fields.map (fun p => p.1.truncate p.2)

/-! ### The whole machine -/

/-- R137: the statistics change only by a DECODE.C, as its status says, and by no other operation. -/
def Obligations.OnlyDecodeWithContextTouchesStatistics : Prop :=
  ∀ (i : Instr) (s t : State), exec i s = .next t →
    (Issues i .decodeC →
      t.lastCrcOk = (if t.status = 0x00 then true else if t.status = 0x06 then false else s.lastCrcOk) ∧
      t.crcErrorCount = if t.status = 0x06 then inc32 s.cfg.cntOvf s.crcErrorCount else s.crcErrorCount) ∧
    (¬ Issues i .decodeC → t.lastCrcOk = s.lastCrcOk ∧ t.crcErrorCount = s.crcErrorCount)

/-- R30, R130: the counter's increment under each value of CNT_OVF. -/
def Obligations.CounterIncrement : Prop :=
  ∀ v : Word, (inc32 .wrap v).toNat = (v.toNat + 1) % 2 ^ 32 ∧
    (inc32 .saturate v).toNat = min (v.toNat + 1) 0xFFFFFFFF

/-- R212: errors are precise. A command, a reserved one included, that ends in error writes its code to STATUS and 0
to RESULT and nothing else, but for the statistics of a DECODE.C that ends CrcMismatch. -/
def Obligations.ErrorsArePrecise : Prop :=
  ∀ (i : Instr) (s t : State),
    (∃ c, Issues i c) ∨ (∃ v : Word, i = .wr 0x00 v ∧ ReservedCommandByte (commandByte v)) →
    exec i s = .next t → t.status ≠ 0x00 →
    t.status ∈ engineStatusCodes ∧
    (t = { s with status := t.status, result := 0x00 } ∨
      (Issues i .decodeC ∧ t.status = 0x06 ∧ t = { s with
        status := 0x06, result := 0x00, lastCrcOk := false
        crcErrorCount := inc32 s.cfg.cntOvf s.crcErrorCount }))

/-- R42: the write set of every command that ends Ok: every register and every byte of both arrays outside it is
as before. -/
def Obligations.CommandWriteSets : Prop :=
  ∀ s t : State,
    (exec .crc8 s = .next t → t = { s with status := t.status, result := t.result }) ∧
    (exec .encode s = .next t → t.status = 0x00 →
      t = { s with status := 0x00, result := t.result, fb := t.fb, len := t.len } ∧
      ∀ a, 4 + s.mDataLen.toNat ≤ a → t.fb.readByte a = s.fb.readByte a) ∧
    (exec .decode s = .next t → t.status = 0x00 →
      t = { s with
        status := 0x00, result := t.result, mTypeId := t.mTypeId, mOpcode := t.mOpcode, mDataLen := t.mDataLen
        mData := t.mData, mCrc := t.mCrc } ∧
      ∀ a, (s.fb.readByte 2).toNat ≤ a → t.mData.readByte a = s.mData.readByte a) ∧
    (exec .decodeC s = .next t → t.status = 0x00 →
      t = { s with
        status := 0x00, result := t.result, mTypeId := t.mTypeId, mOpcode := t.mOpcode, mDataLen := t.mDataLen
        mData := t.mData, mCrc := t.mCrc, lastCrcOk := true } ∧
      ∀ a, (s.fb.readByte 2).toNat ≤ a → t.mData.readByte a = s.mData.readByte a) ∧
    (∀ w : MarshalWidth, exec w.put.toInstr s = .next t → t.status = 0x00 →
      t = { s with status := 0x00, result := t.result, mData := t.mData, mDataLen := t.mDataLen } ∧
      ∀ a, a < s.mDataLen.toNat ∨ s.mDataLen.toNat + w.bytes ≤ a → t.mData.readByte a = s.mData.readByte a) ∧
    ∀ w : MarshalWidth, exec w.get.toInstr s = .next t → t.status = 0x00 →
      t = { s with status := 0x00, result := t.result, val := t.val, rpos := t.rpos }

/-- R24, R23, R20: no operation but a host write to it changes M_SRC_ADDR, CAP, RANGE_OFF or RANGE_LEN, and none
at all the parameters or the host's list. -/
def Obligations.RegistersOnlyTheHostWrites : Prop :=
  ∀ (i : Instr) (s t : State), exec i s = .next t →
    t.cfg = s.cfg ∧ t.hostOps = s.hostOps ∧
    (t.mSrcAddr = s.mSrcAddr ∨ ∃ v, i = .wr 0x14 v) ∧ (t.cap = s.cap ∨ ∃ v, i = .wr 0x04 v) ∧
    (t.rangeOff = s.rangeOff ∨ ∃ v, i = .wr 0x05 v) ∧ (t.rangeLen = s.rangeLen ∨ ∃ v, i = .wr 0x06 v) ∧
    (t.rdLog = s.rdLog ∨ ∃ n, i = .rd n ∧ t.rdLog = s.rdLog ++ [readNumber s n])

/-- The model's canonical form: two arrays in it that read alike at every offset are the same data (log entry 2). -/
def Obligations.CanonicalArraysThatReadAlikeAreEqual : Prop :=
  ∀ (size : Nat) (m m' : Memory), m.wf size = true → m'.wf size = true →
    (∀ a, m.readByte a = m'.readByte a) → m = m'

/-! ### The environment -/

/-- R186, R190: on a Controller Context `handle_receive` and `build_reply` fail with WrongRole and touch nothing. -/
def Obligations.ControllerRoleHasNoSideEffects : Prop :=
  ∀ (ctx : Context) (frame : List Byte) (reply : Byte → Message) (capacity : Byte) (s : State),
    ctx.role = .controller →
    handleReceive ctx frame s = .next { context := ctx, engine := s, result := 0x07, calls := [] } ∧
    buildReply ctx reply capacity s = .next { engine := s, result := 0x07, frame := [] }

/-- R187: a valid SET_REPLY frame calls nothing and sets `requested_opcode` to its first payload byte, leaving it
unchanged when there is none. -/
def Obligations.SetReplyIsInterceptedSilently : Prop :=
  ∀ (ctx : Context) (frame : List Byte) (s : State), ctx.role = .peripheral →
    validFrame (crc8 s.cfg) frame = true → frame.getD 1 0 = 0xFE →
    ∃ r, handleReceive ctx frame s = .next r ∧ r.result = 0x00 ∧ r.calls = [] ∧
      r.context = if frame.getD 2 0 = 0x00 then ctx else { ctx with requestedOpcode := frame.getD 3 0 }

/-- R186, R188: any other valid frame reaches the generic callback, if there is one, and then the handler of its
opcode, if there is one: the callback with the whole decoded message, its CRC byte and the Context's address as
source included, the handler with the exact payload bytes and length. -/
def Obligations.OrdinaryFrameIsDispatched : Prop :=
  ∀ (ctx : Context) (frame : List Byte) (s : State), ctx.role = .peripheral →
    validFrame (crc8 s.cfg) frame = true → frame.getD 1 0 ≠ 0xFE →
    ∃ r, handleReceive ctx frame s = .next r ∧ r.result = 0x00 ∧ r.context = ctx ∧
      r.engine.mSrcAddr = ctx.address ∧
      r.calls =
        (match ctx.onReceive with
          | some cb => [Call.generic cb (frameMessage ctx.address frame)]
          | none => []) ++
        (match findHandler ctx (frame.getD 1 0) with
          | some h => [Call.handler h.callback (frame.getD 1 0) (framePayload frame) (frame.getD 2 0).toNat h.userData]
          | none => [])

/-- R186: a frame of at most 31 bytes that is not valid is an error, and no callback is invoked. -/
def Obligations.InvalidFrameCallsNothing : Prop :=
  ∀ (ctx : Context) (frame : List Byte) (s : State), ctx.role = .peripheral → frame.length ≤ 31 →
    validFrame (crc8 s.cfg) frame = false →
    ∃ r, handleReceive ctx frame s = .next r ∧ r.result ∈ [0x04, 0x05, 0x06] ∧ r.calls = [] ∧ r.context = ctx

/-- R184, R185: registering overwrites the entry of its opcode or takes a free slot, leaves every other opcode's
entry alone, succeeds exactly when the table holds an entry for the opcode or has a free slot, and fails with
HandlerTableFull exactly otherwise; unregistering removes that
entry alone, and is a no-op where there is none. -/
def Obligations.RegisterLastWriteWins : Prop :=
  ∀ (slots : Nat) (ctx : Context) (e : HandlerEntry),
    (∀ ctx', registerHandler slots ctx e = .ok ctx' →
      findHandler ctx' e.opcode = some e ∧ ∀ o, o ≠ e.opcode → findHandler ctx' o = findHandler ctx o) ∧
    ((∃ ctx', registerHandler slots ctx e = .ok ctx') ↔
      findHandler ctx e.opcode ≠ none ∨ ctx.handlers.length < slots) ∧
    (registerHandler slots ctx e = .error .handlerTableFull ↔
      findHandler ctx e.opcode = none ∧ slots ≤ ctx.handlers.length) ∧
    findHandler (unregisterHandler ctx e.opcode) e.opcode = none ∧
    (∀ o, o ≠ e.opcode → findHandler (unregisterHandler ctx e.opcode) o = findHandler ctx o) ∧
    (findHandler ctx e.opcode = none → unregisterHandler ctx e.opcode = ctx)

/-- R191, R192: `build_reply` answers in every state, and two consecutive replies with no SET_REPLY between them are the
same bytes. -/
def Obligations.RepliesPersist : Prop :=
  ∀ (ctx : Context) (reply : Byte → Message) (capacity : Byte) (s : State),
    ∃ r r', buildReply ctx reply capacity s = .next r ∧ buildReply ctx reply capacity r.engine = .next r' ∧
      r'.result = r.result ∧ r'.frame = r.frame ∧
      (ctx.role = .peripheral → ctx.onRequest = false → r.result = 0x00 ∧ r.frame = [])

/-- R193, R194: a scan reports exactly the addresses that acknowledge and answer with a valid frame whose Message
`STRICT_ACCEPT` takes, in order, each with the `type_id` of its frame; not strict, every valid frame counts. The
scanner's open points, the source address in that Message among them, are fixed as log entry 17 says. -/
def Obligations.ScanFindsExactlyValidFrames : Prop :=
  ∀ (acks : Byte → Bool) (answers : Byte → List Byte) (addrs : List Byte) (s : State),
    (∀ accept : DecodedMessage → Bool, ∃ r, scan acks answers accept addrs s = .next r ∧
      r.found = (addrs.filter (fun a => acks a && validFrame (crc8 s.cfg) ((answers a).take 31) &&
        accept (frameMessage s.mSrcAddr ((answers a).take 31)))).map (fun a => (a, (answers a).getD 0 0))) ∧
    ∃ r, scan acks answers (fun _ => true) addrs s = .next r ∧
      r.found = (addrs.filter (fun a => acks a && validFrame (crc8 s.cfg) ((answers a).take 31))).map
        (fun a => (a, (answers a).getD 0 0))

/-- R190: `build_reply` by role and callback. A Controller gets WrongRole; with no "on request" callback the reply is
empty; otherwise the callback's message is encoded into the capacity, ENCODE's error propagated. A byte of the payload
that the message's list does not give is the one M_DATA holds (the model's form of a message, log entry 15). -/
def Obligations.BuildReplyRule : Prop :=
  ∀ (ctx : Context) (reply : Byte → Message) (capacity : Byte) (s : State),
    let m := reply ctx.requestedOpcode
    let n := m.dataLen.toNat
    let cap := capacity.toNat
    let body := [m.typeId, m.opcode, m.dataLen] ++ (List.range n).map (fun i => m.data.getD i (s.mData.readByte i))
    let answers := fun (code : Byte) (frame : List Byte) =>
      ∃ r, buildReply ctx reply capacity s = .next r ∧ r.result = code ∧ r.frame = frame
    (ctx.role = .controller →
      buildReply ctx reply capacity s = .next { engine := s, result := 0x07, frame := [] }) ∧
    (ctx.role = .peripheral → ctx.onRequest = false →
      buildReply ctx reply capacity s = .next { engine := s, result := 0x00, frame := [] }) ∧
    (ctx.role = .peripheral → ctx.onRequest = true →
      (31 < cap → answers 0x01 []) ∧ (cap ≤ 31 → 27 < n → answers 0x02 []) ∧
      (cap ≤ 31 → n ≤ 27 → cap < 4 + n → answers 0x03 []) ∧
      (cap ≤ 31 → n ≤ 27 → 4 + n ≤ cap → answers 0x00 (body ++ [crc8 s.cfg body])))
end

