-- ==== Sys2Proof/Laws/Memory.lean ====
section
/-! SUPPORT. The byte arrays: read after write, and the canonical form every operation keeps. -/

namespace Sys2Proof.Machine

/-! ### One byte -/

@[simp] theorem Memory.readByte_nil (a : Nat) : Memory.readByte [] a = Memory.unlisted := rfl

theorem Memory.readByte_filter_ne (m : Memory) (a x : Nat) (h : x ≠ a) :
    Memory.readByte (m.filter (fun c => c.1 != a)) x = m.readByte x := by
  induction m with
  | nil => rfl
  | cons c rest ih =>
    obtain ⟨b, v⟩ := c
    by_cases hb : b = a
    · have : b ≠ x := by omega
      simpa [hb, Memory.readByte, this, Ne.symm h] using ih
    · by_cases hx : b = x <;> simp [hb, hx, Memory.readByte, ih, h]

theorem Memory.readByte_filter_self (m : Memory) (a : Nat) :
    Memory.readByte (m.filter (fun c => c.1 != a)) a = Memory.unlisted := by
  induction m with
  | nil => rfl
  | cons c rest ih =>
    obtain ⟨b, v⟩ := c
    by_cases hb : b = a <;> simp [hb, Memory.readByte, ih]

theorem Memory.readByte_insertCell_ne (a x : Nat) (v : Byte) (m : Memory) (h : x ≠ a) :
    Memory.readByte (Memory.insertCell a v m) x = m.readByte x := by
  induction m with
  | nil => simp [Memory.insertCell, Memory.readByte, Ne.symm h]
  | cons c rest ih =>
    obtain ⟨b, w⟩ := c
    by_cases hb : a < b
    · simp [Memory.insertCell, hb, Memory.readByte, Ne.symm h]
    · simp [Memory.insertCell, hb, Memory.readByte, ih]

theorem Memory.readByte_insertCell_self (a : Nat) (v : Byte) (m : Memory) (h : ∀ c ∈ m, c.1 ≠ a) :
    Memory.readByte (Memory.insertCell a v m) a = v := by
  induction m with
  | nil => simp [Memory.insertCell, Memory.readByte]
  | cons c rest ih =>
    obtain ⟨b, w⟩ := c
    have hb : b ≠ a := h (b, w) (by simp)
    have ih := ih (fun c hc => h c (by simp [hc]))
    by_cases hab : a < b <;> simp [Memory.insertCell, hab, Memory.readByte, hb, ih]

/-- A byte read back where it was written, in any array (00_scope.md R10, 20_memory.md R61). -/
@[simp] theorem Memory.readByte_writeByte_same (m : Memory) (a : Nat) (v : Byte) :
    (m.writeByte a v).readByte a = v := by
  unfold Memory.writeByte
  split
  · next h => rw [Memory.readByte_filter_self, h]
  · exact Memory.readByte_insertCell_self a v _ (by simp)

/-- A write leaves every other offset alone, in any array. -/
theorem Memory.readByte_writeByte_ne (m : Memory) (a x : Nat) (v : Byte) (h : x ≠ a) :
    (m.writeByte a v).readByte x = m.readByte x := by
  unfold Memory.writeByte
  split
  · exact Memory.readByte_filter_ne m a x h
  · rw [Memory.readByte_insertCell_ne _ _ _ _ h, Memory.readByte_filter_ne m a x h]

/-! ### Byte sequences -/

@[simp] theorem Memory.readBytes_length (m : Memory) (o k : Nat) : (m.readBytes o k).length = k := by
  simp [Memory.readBytes]

@[simp] theorem Memory.readBytes_zero (m : Memory) (o : Nat) : m.readBytes o 0 = [] := rfl

theorem Memory.getElem_readBytes (m : Memory) (o k i : Nat) (h : i < (m.readBytes o k).length) :
    (m.readBytes o k)[i] = m.readByte (o + i) := by
  simp [Memory.readBytes]

@[simp] theorem Memory.writeBytes_nil (m : Memory) (o : Nat) : m.writeBytes o [] = m := rfl

theorem Memory.writeBytes_cons (m : Memory) (o : Nat) (b : Byte) (bs : List Byte) :
    m.writeBytes o (b :: bs) = (m.writeByte o b).writeBytes (o + 1) bs := rfl

/-- Everything a write of a byte sequence does, offset by offset. -/
theorem Memory.readByte_writeBytes (m : Memory) (o : Nat) (bs : List Byte) (a : Nat) :
    (m.writeBytes o bs).readByte a =
      if h : o ≤ a ∧ a < o + bs.length then bs[a - o]'(by omega) else m.readByte a := by
  induction bs generalizing m o with
  | nil => simp
  | cons b bs ih =>
    rw [Memory.writeBytes_cons, ih]
    by_cases h1 : o + 1 ≤ a ∧ a < o + 1 + bs.length
    · have h2 : o ≤ a ∧ a < o + (b :: bs).length := by simp; omega
      rw [dif_pos h1, dif_pos h2, List.getElem_cons]
      have h3 : a - o ≠ 0 := by omega
      simp only [h3, dite_false]
      congr 1
    · rw [dif_neg h1]
      by_cases h2 : a = o
      · subst h2; simp
      · have h3 : ¬(o ≤ a ∧ a < o + (b :: bs).length) := by simp at *; omega
        rw [dif_neg h3, Memory.readByte_writeByte_ne _ _ _ _ h2]

/-- Outside the bytes stored, nothing changes. -/
theorem Memory.readByte_writeBytes_outside (m : Memory) (o : Nat) (bs : List Byte) (a : Nat)
    (h : a < o ∨ o + bs.length ≤ a) : (m.writeBytes o bs).readByte a = m.readByte a := by
  rw [Memory.readByte_writeBytes, dif_neg (by omega)]

/-- The bytes stored are read back. -/
theorem Memory.readBytes_writeBytes_same (m : Memory) (o : Nat) (bs : List Byte) :
    (m.writeBytes o bs).readBytes o bs.length = bs := by
  apply List.ext_getElem (by simp)
  intro i h1 h2
  rw [Memory.getElem_readBytes, Memory.readByte_writeBytes, dif_pos (by omega)]
  congr 1
  omega

/-- A stretch of bytes depends on nothing but the bytes of the stretch. -/
theorem Memory.readBytes_congr (m m' : Memory) (o k : Nat)
    (h : ∀ i, i < k → m.readByte (o + i) = m'.readByte (o + i)) : m.readBytes o k = m'.readBytes o k := by
  apply List.ext_getElem (by simp)
  intro i h1 h2
  rw [Memory.getElem_readBytes, Memory.getElem_readBytes]
  exact h i (by simpa using h1)

/-- Two stretches that follow each other are one. -/
theorem Memory.readBytes_append (m : Memory) (o j k : Nat) :
    m.readBytes o (j + k) = m.readBytes o j ++ m.readBytes (o + j) k := by
  simp only [Memory.readBytes, List.range_add, List.map_append, List.map_map]
  congr 1
  apply List.map_congr_left
  intro i _
  simp [Nat.add_assoc]

/-- A stretch one byte longer. -/
theorem Memory.readBytes_succ (m : Memory) (o k : Nat) :
    m.readBytes o (k + 1) = m.readBytes o k ++ [m.readByte (o + k)] := by
  simp [Memory.readBytes, List.range_succ]

/-- A sequence is stored piece by piece. -/
theorem Memory.writeBytes_append (m : Memory) (o : Nat) (bs cs : List Byte) :
    m.writeBytes o (bs ++ cs) = (m.writeBytes o bs).writeBytes (o + bs.length) cs := by
  induction bs generalizing m o with
  | nil => simp
  | cons b bs ih =>
    simp only [List.cons_append, Memory.writeBytes_cons, ih, List.length_cons]
    congr 1
    omega

/-! ### The canonical form -/

theorem Memory.wfFrom_cons (size low a : Nat) (v : Byte) (rest : Memory) :
    Memory.wfFrom size low ((a, v) :: rest) = true ↔
      (low ≤ a ∧ a < size ∧ v ≠ Memory.unlisted) ∧ Memory.wfFrom size (a + 1) rest = true := by
  simp [Memory.wfFrom, and_assoc]

theorem Memory.wfFrom_mono (size low low' : Nat) (m : Memory) (h : low' ≤ low)
    (hm : Memory.wfFrom size low m = true) : Memory.wfFrom size low' m = true := by
  cases m with
  | nil => rfl
  | cons c rest =>
    obtain ⟨a, v⟩ := c
    rw [Memory.wfFrom_cons] at hm ⊢
    exact ⟨⟨by omega, hm.1.2.1, hm.1.2.2⟩, hm.2⟩

theorem Memory.wfFrom_filter (size low a : Nat) (m : Memory) (hm : Memory.wfFrom size low m = true) :
    Memory.wfFrom size low (m.filter (fun c => c.1 != a)) = true := by
  induction m generalizing low with
  | nil => rfl
  | cons c rest ih =>
    obtain ⟨b, v⟩ := c
    rw [Memory.wfFrom_cons] at hm
    by_cases hb : b = a
    · subst hb
      simp only [List.filter_cons, bne_self_eq_false, Bool.false_eq_true, if_false]
      exact Memory.wfFrom_mono size (b + 1) low _ (by omega) (ih _ hm.2)
    · simp only [List.filter_cons, bne_iff_ne, ne_eq, hb, not_false_eq_true, if_true]
      rw [Memory.wfFrom_cons]
      exact ⟨hm.1, ih _ hm.2⟩

theorem Memory.wfFrom_insertCell (size low a : Nat) (v : Byte) (m : Memory)
    (hm : Memory.wfFrom size low m = true) (ha : low ≤ a) (hs : a < size) (hv : v ≠ Memory.unlisted)
    (hne : ∀ c ∈ m, c.1 ≠ a) : Memory.wfFrom size low (Memory.insertCell a v m) = true := by
  induction m generalizing low with
  | nil =>
    rw [Memory.insertCell, Memory.wfFrom_cons]
    exact ⟨⟨ha, hs, hv⟩, rfl⟩
  | cons c rest ih =>
    obtain ⟨b, w⟩ := c
    have hb : b ≠ a := hne (b, w) (by simp)
    rw [Memory.wfFrom_cons] at hm
    by_cases hab : a < b
    · rw [Memory.insertCell, if_pos hab, Memory.wfFrom_cons, Memory.wfFrom_cons]
      exact ⟨⟨ha, hs, hv⟩, ⟨by omega, hm.1.2.1, hm.1.2.2⟩, hm.2⟩
    · rw [Memory.insertCell, if_neg hab, Memory.wfFrom_cons]
      exact ⟨hm.1, ih (b + 1) hm.2 (by omega) (fun c hc => hne c (by simp [hc]))⟩

@[simp] theorem Memory.wf_nil (size : Nat) : Memory.wf size [] = true := rfl

/-- A byte stored inside the array keeps the canonical form. -/
theorem Memory.wf_writeByte (size : Nat) (m : Memory) (a : Nat) (v : Byte) (hm : m.wf size = true)
    (ha : a < size) : (m.writeByte a v).wf size = true := by
  unfold Memory.writeByte
  split
  · exact Memory.wfFrom_filter size 0 a m hm
  · next h =>
    exact Memory.wfFrom_insertCell size 0 a v _ (Memory.wfFrom_filter size 0 a m hm) (by omega) ha h (by simp)

/-- A byte sequence stored inside the array keeps the canonical form. -/
theorem Memory.wf_writeBytes (size : Nat) (m : Memory) (o : Nat) (bs : List Byte) (hm : m.wf size = true)
    (h : o + bs.length ≤ size) : (m.writeBytes o bs).wf size = true := by
  induction bs generalizing m o with
  | nil => exact hm
  | cons b bs ih =>
    simp only [List.length_cons] at h
    exact ih _ _ (Memory.wf_writeByte size m o b hm (by omega)) (by omega)

end Sys2Proof.Machine
end

