-- ==== Sys2Proof/Laws/State.lean ====
section
/-! SUPPORT. One lemma per field per named update of State, and what a host write leaves alone. -/

namespace Sys2Proof.Machine

/-! ### `raise` -/

@[simp] theorem raise_status (e : Status) (s : State) : (raise e s).status = e.code := rfl
@[simp] theorem raise_result (e : Status) (s : State) : (raise e s).result = 0 := rfl
@[simp] theorem raise_len (e : Status) (s : State) : (raise e s).len = s.len := rfl
@[simp] theorem raise_cap (e : Status) (s : State) : (raise e s).cap = s.cap := rfl
@[simp] theorem raise_rangeOff (e : Status) (s : State) : (raise e s).rangeOff = s.rangeOff := rfl
@[simp] theorem raise_rangeLen (e : Status) (s : State) : (raise e s).rangeLen = s.rangeLen := rfl
@[simp] theorem raise_rpos (e : Status) (s : State) : (raise e s).rpos = s.rpos := rfl
@[simp] theorem raise_val (e : Status) (s : State) : (raise e s).val = s.val := rfl
@[simp] theorem raise_crcErrorCount (e : Status) (s : State) : (raise e s).crcErrorCount = s.crcErrorCount := rfl
@[simp] theorem raise_lastCrcOk (e : Status) (s : State) : (raise e s).lastCrcOk = s.lastCrcOk := rfl
@[simp] theorem raise_mTypeId (e : Status) (s : State) : (raise e s).mTypeId = s.mTypeId := rfl
@[simp] theorem raise_mOpcode (e : Status) (s : State) : (raise e s).mOpcode = s.mOpcode := rfl
@[simp] theorem raise_mDataLen (e : Status) (s : State) : (raise e s).mDataLen = s.mDataLen := rfl
@[simp] theorem raise_mCrc (e : Status) (s : State) : (raise e s).mCrc = s.mCrc := rfl
@[simp] theorem raise_mSrcAddr (e : Status) (s : State) : (raise e s).mSrcAddr = s.mSrcAddr := rfl
@[simp] theorem raise_mData (e : Status) (s : State) : (raise e s).mData = s.mData := rfl
@[simp] theorem raise_fb (e : Status) (s : State) : (raise e s).fb = s.fb := rfl
@[simp] theorem raise_cfg (e : Status) (s : State) : (raise e s).cfg = s.cfg := rfl
@[simp] theorem raise_hostOps (e : Status) (s : State) : (raise e s).hostOps = s.hostOps := rfl
@[simp] theorem raise_rdLog (e : Status) (s : State) : (raise e s).rdLog = s.rdLog := rfl

/-! ### `done` -/

@[simp] theorem done_status (r : Nat) (s : State) : (done r s).status = Status.ok.code := rfl
@[simp] theorem done_result (r : Nat) (s : State) : (done r s).result = BitVec.ofNat 8 r := rfl
@[simp] theorem done_len (r : Nat) (s : State) : (done r s).len = s.len := rfl
@[simp] theorem done_cap (r : Nat) (s : State) : (done r s).cap = s.cap := rfl
@[simp] theorem done_rangeOff (r : Nat) (s : State) : (done r s).rangeOff = s.rangeOff := rfl
@[simp] theorem done_rangeLen (r : Nat) (s : State) : (done r s).rangeLen = s.rangeLen := rfl
@[simp] theorem done_rpos (r : Nat) (s : State) : (done r s).rpos = s.rpos := rfl
@[simp] theorem done_val (r : Nat) (s : State) : (done r s).val = s.val := rfl
@[simp] theorem done_crcErrorCount (r : Nat) (s : State) : (done r s).crcErrorCount = s.crcErrorCount := rfl
@[simp] theorem done_lastCrcOk (r : Nat) (s : State) : (done r s).lastCrcOk = s.lastCrcOk := rfl
@[simp] theorem done_mTypeId (r : Nat) (s : State) : (done r s).mTypeId = s.mTypeId := rfl
@[simp] theorem done_mOpcode (r : Nat) (s : State) : (done r s).mOpcode = s.mOpcode := rfl
@[simp] theorem done_mDataLen (r : Nat) (s : State) : (done r s).mDataLen = s.mDataLen := rfl
@[simp] theorem done_mCrc (r : Nat) (s : State) : (done r s).mCrc = s.mCrc := rfl
@[simp] theorem done_mSrcAddr (r : Nat) (s : State) : (done r s).mSrcAddr = s.mSrcAddr := rfl
@[simp] theorem done_mData (r : Nat) (s : State) : (done r s).mData = s.mData := rfl
@[simp] theorem done_fb (r : Nat) (s : State) : (done r s).fb = s.fb := rfl
@[simp] theorem done_cfg (r : Nat) (s : State) : (done r s).cfg = s.cfg := rfl
@[simp] theorem done_hostOps (r : Nat) (s : State) : (done r s).hostOps = s.hostOps := rfl
@[simp] theorem done_rdLog (r : Nat) (s : State) : (done r s).rdLog = s.rdLog := rfl

/-! ### `noteCrcOk` -/

@[simp] theorem noteCrcOk_status (s : State) : (noteCrcOk s).status = s.status := rfl
@[simp] theorem noteCrcOk_result (s : State) : (noteCrcOk s).result = s.result := rfl
@[simp] theorem noteCrcOk_len (s : State) : (noteCrcOk s).len = s.len := rfl
@[simp] theorem noteCrcOk_cap (s : State) : (noteCrcOk s).cap = s.cap := rfl
@[simp] theorem noteCrcOk_rangeOff (s : State) : (noteCrcOk s).rangeOff = s.rangeOff := rfl
@[simp] theorem noteCrcOk_rangeLen (s : State) : (noteCrcOk s).rangeLen = s.rangeLen := rfl
@[simp] theorem noteCrcOk_rpos (s : State) : (noteCrcOk s).rpos = s.rpos := rfl
@[simp] theorem noteCrcOk_val (s : State) : (noteCrcOk s).val = s.val := rfl
@[simp] theorem noteCrcOk_crcErrorCount (s : State) : (noteCrcOk s).crcErrorCount = s.crcErrorCount := rfl
@[simp] theorem noteCrcOk_lastCrcOk (s : State) : (noteCrcOk s).lastCrcOk = true := rfl
@[simp] theorem noteCrcOk_mTypeId (s : State) : (noteCrcOk s).mTypeId = s.mTypeId := rfl
@[simp] theorem noteCrcOk_mOpcode (s : State) : (noteCrcOk s).mOpcode = s.mOpcode := rfl
@[simp] theorem noteCrcOk_mDataLen (s : State) : (noteCrcOk s).mDataLen = s.mDataLen := rfl
@[simp] theorem noteCrcOk_mCrc (s : State) : (noteCrcOk s).mCrc = s.mCrc := rfl
@[simp] theorem noteCrcOk_mSrcAddr (s : State) : (noteCrcOk s).mSrcAddr = s.mSrcAddr := rfl
@[simp] theorem noteCrcOk_mData (s : State) : (noteCrcOk s).mData = s.mData := rfl
@[simp] theorem noteCrcOk_fb (s : State) : (noteCrcOk s).fb = s.fb := rfl
@[simp] theorem noteCrcOk_cfg (s : State) : (noteCrcOk s).cfg = s.cfg := rfl
@[simp] theorem noteCrcOk_hostOps (s : State) : (noteCrcOk s).hostOps = s.hostOps := rfl
@[simp] theorem noteCrcOk_rdLog (s : State) : (noteCrcOk s).rdLog = s.rdLog := rfl

/-! ### `noteCrcError` -/

@[simp] theorem noteCrcError_status (s : State) : (noteCrcError s).status = s.status := rfl
@[simp] theorem noteCrcError_result (s : State) : (noteCrcError s).result = s.result := rfl
@[simp] theorem noteCrcError_len (s : State) : (noteCrcError s).len = s.len := rfl
@[simp] theorem noteCrcError_cap (s : State) : (noteCrcError s).cap = s.cap := rfl
@[simp] theorem noteCrcError_rangeOff (s : State) : (noteCrcError s).rangeOff = s.rangeOff := rfl
@[simp] theorem noteCrcError_rangeLen (s : State) : (noteCrcError s).rangeLen = s.rangeLen := rfl
@[simp] theorem noteCrcError_rpos (s : State) : (noteCrcError s).rpos = s.rpos := rfl
@[simp] theorem noteCrcError_val (s : State) : (noteCrcError s).val = s.val := rfl
@[simp] theorem noteCrcError_crcErrorCount (s : State) : (noteCrcError s).crcErrorCount = inc32 s.cfg.cntOvf s.crcErrorCount := rfl
@[simp] theorem noteCrcError_lastCrcOk (s : State) : (noteCrcError s).lastCrcOk = false := rfl
@[simp] theorem noteCrcError_mTypeId (s : State) : (noteCrcError s).mTypeId = s.mTypeId := rfl
@[simp] theorem noteCrcError_mOpcode (s : State) : (noteCrcError s).mOpcode = s.mOpcode := rfl
@[simp] theorem noteCrcError_mDataLen (s : State) : (noteCrcError s).mDataLen = s.mDataLen := rfl
@[simp] theorem noteCrcError_mCrc (s : State) : (noteCrcError s).mCrc = s.mCrc := rfl
@[simp] theorem noteCrcError_mSrcAddr (s : State) : (noteCrcError s).mSrcAddr = s.mSrcAddr := rfl
@[simp] theorem noteCrcError_mData (s : State) : (noteCrcError s).mData = s.mData := rfl
@[simp] theorem noteCrcError_fb (s : State) : (noteCrcError s).fb = s.fb := rfl
@[simp] theorem noteCrcError_cfg (s : State) : (noteCrcError s).cfg = s.cfg := rfl
@[simp] theorem noteCrcError_hostOps (s : State) : (noteCrcError s).hostOps = s.hostOps := rfl
@[simp] theorem noteCrcError_rdLog (s : State) : (noteCrcError s).rdLog = s.rdLog := rfl

/-! ### `setLen` -/

@[simp] theorem setLen_status (n : Nat) (s : State) : (setLen n s).status = s.status := rfl
@[simp] theorem setLen_result (n : Nat) (s : State) : (setLen n s).result = s.result := rfl
@[simp] theorem setLen_len (n : Nat) (s : State) : (setLen n s).len = BitVec.ofNat 8 n := rfl
@[simp] theorem setLen_cap (n : Nat) (s : State) : (setLen n s).cap = s.cap := rfl
@[simp] theorem setLen_rangeOff (n : Nat) (s : State) : (setLen n s).rangeOff = s.rangeOff := rfl
@[simp] theorem setLen_rangeLen (n : Nat) (s : State) : (setLen n s).rangeLen = s.rangeLen := rfl
@[simp] theorem setLen_rpos (n : Nat) (s : State) : (setLen n s).rpos = s.rpos := rfl
@[simp] theorem setLen_val (n : Nat) (s : State) : (setLen n s).val = s.val := rfl
@[simp] theorem setLen_crcErrorCount (n : Nat) (s : State) : (setLen n s).crcErrorCount = s.crcErrorCount := rfl
@[simp] theorem setLen_lastCrcOk (n : Nat) (s : State) : (setLen n s).lastCrcOk = s.lastCrcOk := rfl
@[simp] theorem setLen_mTypeId (n : Nat) (s : State) : (setLen n s).mTypeId = s.mTypeId := rfl
@[simp] theorem setLen_mOpcode (n : Nat) (s : State) : (setLen n s).mOpcode = s.mOpcode := rfl
@[simp] theorem setLen_mDataLen (n : Nat) (s : State) : (setLen n s).mDataLen = s.mDataLen := rfl
@[simp] theorem setLen_mCrc (n : Nat) (s : State) : (setLen n s).mCrc = s.mCrc := rfl
@[simp] theorem setLen_mSrcAddr (n : Nat) (s : State) : (setLen n s).mSrcAddr = s.mSrcAddr := rfl
@[simp] theorem setLen_mData (n : Nat) (s : State) : (setLen n s).mData = s.mData := rfl
@[simp] theorem setLen_fb (n : Nat) (s : State) : (setLen n s).fb = s.fb := rfl
@[simp] theorem setLen_cfg (n : Nat) (s : State) : (setLen n s).cfg = s.cfg := rfl
@[simp] theorem setLen_hostOps (n : Nat) (s : State) : (setLen n s).hostOps = s.hostOps := rfl
@[simp] theorem setLen_rdLog (n : Nat) (s : State) : (setLen n s).rdLog = s.rdLog := rfl

/-! ### `setMessage` -/

@[simp] theorem setMessage_status (t o n c : Byte) (s : State) : (setMessage t o n c s).status = s.status := rfl
@[simp] theorem setMessage_result (t o n c : Byte) (s : State) : (setMessage t o n c s).result = s.result := rfl
@[simp] theorem setMessage_len (t o n c : Byte) (s : State) : (setMessage t o n c s).len = s.len := rfl
@[simp] theorem setMessage_cap (t o n c : Byte) (s : State) : (setMessage t o n c s).cap = s.cap := rfl
@[simp] theorem setMessage_rangeOff (t o n c : Byte) (s : State) : (setMessage t o n c s).rangeOff = s.rangeOff := rfl
@[simp] theorem setMessage_rangeLen (t o n c : Byte) (s : State) : (setMessage t o n c s).rangeLen = s.rangeLen := rfl
@[simp] theorem setMessage_rpos (t o n c : Byte) (s : State) : (setMessage t o n c s).rpos = s.rpos := rfl
@[simp] theorem setMessage_val (t o n c : Byte) (s : State) : (setMessage t o n c s).val = s.val := rfl
@[simp] theorem setMessage_crcErrorCount (t o n c : Byte) (s : State) : (setMessage t o n c s).crcErrorCount = s.crcErrorCount := rfl
@[simp] theorem setMessage_lastCrcOk (t o n c : Byte) (s : State) : (setMessage t o n c s).lastCrcOk = s.lastCrcOk := rfl
@[simp] theorem setMessage_mTypeId (t o n c : Byte) (s : State) : (setMessage t o n c s).mTypeId = t := rfl
@[simp] theorem setMessage_mOpcode (t o n c : Byte) (s : State) : (setMessage t o n c s).mOpcode = o := rfl
@[simp] theorem setMessage_mDataLen (t o n c : Byte) (s : State) : (setMessage t o n c s).mDataLen = n := rfl
@[simp] theorem setMessage_mCrc (t o n c : Byte) (s : State) : (setMessage t o n c s).mCrc = c := rfl
@[simp] theorem setMessage_mSrcAddr (t o n c : Byte) (s : State) : (setMessage t o n c s).mSrcAddr = s.mSrcAddr := rfl
@[simp] theorem setMessage_mData (t o n c : Byte) (s : State) : (setMessage t o n c s).mData = s.mData := rfl
@[simp] theorem setMessage_fb (t o n c : Byte) (s : State) : (setMessage t o n c s).fb = s.fb := rfl
@[simp] theorem setMessage_cfg (t o n c : Byte) (s : State) : (setMessage t o n c s).cfg = s.cfg := rfl
@[simp] theorem setMessage_hostOps (t o n c : Byte) (s : State) : (setMessage t o n c s).hostOps = s.hostOps := rfl
@[simp] theorem setMessage_rdLog (t o n c : Byte) (s : State) : (setMessage t o n c s).rdLog = s.rdLog := rfl

/-! ### `setDataLen` -/

@[simp] theorem setDataLen_status (n : Nat) (s : State) : (setDataLen n s).status = s.status := rfl
@[simp] theorem setDataLen_result (n : Nat) (s : State) : (setDataLen n s).result = s.result := rfl
@[simp] theorem setDataLen_len (n : Nat) (s : State) : (setDataLen n s).len = s.len := rfl
@[simp] theorem setDataLen_cap (n : Nat) (s : State) : (setDataLen n s).cap = s.cap := rfl
@[simp] theorem setDataLen_rangeOff (n : Nat) (s : State) : (setDataLen n s).rangeOff = s.rangeOff := rfl
@[simp] theorem setDataLen_rangeLen (n : Nat) (s : State) : (setDataLen n s).rangeLen = s.rangeLen := rfl
@[simp] theorem setDataLen_rpos (n : Nat) (s : State) : (setDataLen n s).rpos = s.rpos := rfl
@[simp] theorem setDataLen_val (n : Nat) (s : State) : (setDataLen n s).val = s.val := rfl
@[simp] theorem setDataLen_crcErrorCount (n : Nat) (s : State) : (setDataLen n s).crcErrorCount = s.crcErrorCount := rfl
@[simp] theorem setDataLen_lastCrcOk (n : Nat) (s : State) : (setDataLen n s).lastCrcOk = s.lastCrcOk := rfl
@[simp] theorem setDataLen_mTypeId (n : Nat) (s : State) : (setDataLen n s).mTypeId = s.mTypeId := rfl
@[simp] theorem setDataLen_mOpcode (n : Nat) (s : State) : (setDataLen n s).mOpcode = s.mOpcode := rfl
@[simp] theorem setDataLen_mDataLen (n : Nat) (s : State) : (setDataLen n s).mDataLen = BitVec.ofNat 8 n := rfl
@[simp] theorem setDataLen_mCrc (n : Nat) (s : State) : (setDataLen n s).mCrc = s.mCrc := rfl
@[simp] theorem setDataLen_mSrcAddr (n : Nat) (s : State) : (setDataLen n s).mSrcAddr = s.mSrcAddr := rfl
@[simp] theorem setDataLen_mData (n : Nat) (s : State) : (setDataLen n s).mData = s.mData := rfl
@[simp] theorem setDataLen_fb (n : Nat) (s : State) : (setDataLen n s).fb = s.fb := rfl
@[simp] theorem setDataLen_cfg (n : Nat) (s : State) : (setDataLen n s).cfg = s.cfg := rfl
@[simp] theorem setDataLen_hostOps (n : Nat) (s : State) : (setDataLen n s).hostOps = s.hostOps := rfl
@[simp] theorem setDataLen_rdLog (n : Nat) (s : State) : (setDataLen n s).rdLog = s.rdLog := rfl

/-! ### `setRead` -/

@[simp] theorem setRead_status (v : Word) (p : Nat) (s : State) : (setRead v p s).status = s.status := rfl
@[simp] theorem setRead_result (v : Word) (p : Nat) (s : State) : (setRead v p s).result = s.result := rfl
@[simp] theorem setRead_len (v : Word) (p : Nat) (s : State) : (setRead v p s).len = s.len := rfl
@[simp] theorem setRead_cap (v : Word) (p : Nat) (s : State) : (setRead v p s).cap = s.cap := rfl
@[simp] theorem setRead_rangeOff (v : Word) (p : Nat) (s : State) : (setRead v p s).rangeOff = s.rangeOff := rfl
@[simp] theorem setRead_rangeLen (v : Word) (p : Nat) (s : State) : (setRead v p s).rangeLen = s.rangeLen := rfl
@[simp] theorem setRead_rpos (v : Word) (p : Nat) (s : State) : (setRead v p s).rpos = BitVec.ofNat 8 p := rfl
@[simp] theorem setRead_val (v : Word) (p : Nat) (s : State) : (setRead v p s).val = v := rfl
@[simp] theorem setRead_crcErrorCount (v : Word) (p : Nat) (s : State) : (setRead v p s).crcErrorCount = s.crcErrorCount := rfl
@[simp] theorem setRead_lastCrcOk (v : Word) (p : Nat) (s : State) : (setRead v p s).lastCrcOk = s.lastCrcOk := rfl
@[simp] theorem setRead_mTypeId (v : Word) (p : Nat) (s : State) : (setRead v p s).mTypeId = s.mTypeId := rfl
@[simp] theorem setRead_mOpcode (v : Word) (p : Nat) (s : State) : (setRead v p s).mOpcode = s.mOpcode := rfl
@[simp] theorem setRead_mDataLen (v : Word) (p : Nat) (s : State) : (setRead v p s).mDataLen = s.mDataLen := rfl
@[simp] theorem setRead_mCrc (v : Word) (p : Nat) (s : State) : (setRead v p s).mCrc = s.mCrc := rfl
@[simp] theorem setRead_mSrcAddr (v : Word) (p : Nat) (s : State) : (setRead v p s).mSrcAddr = s.mSrcAddr := rfl
@[simp] theorem setRead_mData (v : Word) (p : Nat) (s : State) : (setRead v p s).mData = s.mData := rfl
@[simp] theorem setRead_fb (v : Word) (p : Nat) (s : State) : (setRead v p s).fb = s.fb := rfl
@[simp] theorem setRead_cfg (v : Word) (p : Nat) (s : State) : (setRead v p s).cfg = s.cfg := rfl
@[simp] theorem setRead_hostOps (v : Word) (p : Nat) (s : State) : (setRead v p s).hostOps = s.hostOps := rfl
@[simp] theorem setRead_rdLog (v : Word) (p : Nat) (s : State) : (setRead v p s).rdLog = s.rdLog := rfl

/-! ### `returnToHost` -/

@[simp] theorem returnToHost_status (v : Word) (s : State) : (returnToHost v s).status = s.status := rfl
@[simp] theorem returnToHost_result (v : Word) (s : State) : (returnToHost v s).result = s.result := rfl
@[simp] theorem returnToHost_len (v : Word) (s : State) : (returnToHost v s).len = s.len := rfl
@[simp] theorem returnToHost_cap (v : Word) (s : State) : (returnToHost v s).cap = s.cap := rfl
@[simp] theorem returnToHost_rangeOff (v : Word) (s : State) : (returnToHost v s).rangeOff = s.rangeOff := rfl
@[simp] theorem returnToHost_rangeLen (v : Word) (s : State) : (returnToHost v s).rangeLen = s.rangeLen := rfl
@[simp] theorem returnToHost_rpos (v : Word) (s : State) : (returnToHost v s).rpos = s.rpos := rfl
@[simp] theorem returnToHost_val (v : Word) (s : State) : (returnToHost v s).val = s.val := rfl
@[simp] theorem returnToHost_crcErrorCount (v : Word) (s : State) : (returnToHost v s).crcErrorCount = s.crcErrorCount := rfl
@[simp] theorem returnToHost_lastCrcOk (v : Word) (s : State) : (returnToHost v s).lastCrcOk = s.lastCrcOk := rfl
@[simp] theorem returnToHost_mTypeId (v : Word) (s : State) : (returnToHost v s).mTypeId = s.mTypeId := rfl
@[simp] theorem returnToHost_mOpcode (v : Word) (s : State) : (returnToHost v s).mOpcode = s.mOpcode := rfl
@[simp] theorem returnToHost_mDataLen (v : Word) (s : State) : (returnToHost v s).mDataLen = s.mDataLen := rfl
@[simp] theorem returnToHost_mCrc (v : Word) (s : State) : (returnToHost v s).mCrc = s.mCrc := rfl
@[simp] theorem returnToHost_mSrcAddr (v : Word) (s : State) : (returnToHost v s).mSrcAddr = s.mSrcAddr := rfl
@[simp] theorem returnToHost_mData (v : Word) (s : State) : (returnToHost v s).mData = s.mData := rfl
@[simp] theorem returnToHost_fb (v : Word) (s : State) : (returnToHost v s).fb = s.fb := rfl
@[simp] theorem returnToHost_cfg (v : Word) (s : State) : (returnToHost v s).cfg = s.cfg := rfl
@[simp] theorem returnToHost_hostOps (v : Word) (s : State) : (returnToHost v s).hostOps = s.hostOps := rfl
@[simp] theorem returnToHost_rdLog (v : Word) (s : State) : (returnToHost v s).rdLog = s.rdLog ++ [v] := rfl

/-! ### `putHostOp` -/

@[simp] theorem putHostOp_status (w : HostWord) (s : State) : (putHostOp w s).status = s.status := rfl
@[simp] theorem putHostOp_result (w : HostWord) (s : State) : (putHostOp w s).result = s.result := rfl
@[simp] theorem putHostOp_len (w : HostWord) (s : State) : (putHostOp w s).len = s.len := rfl
@[simp] theorem putHostOp_cap (w : HostWord) (s : State) : (putHostOp w s).cap = s.cap := rfl
@[simp] theorem putHostOp_rangeOff (w : HostWord) (s : State) : (putHostOp w s).rangeOff = s.rangeOff := rfl
@[simp] theorem putHostOp_rangeLen (w : HostWord) (s : State) : (putHostOp w s).rangeLen = s.rangeLen := rfl
@[simp] theorem putHostOp_rpos (w : HostWord) (s : State) : (putHostOp w s).rpos = s.rpos := rfl
@[simp] theorem putHostOp_val (w : HostWord) (s : State) : (putHostOp w s).val = s.val := rfl
@[simp] theorem putHostOp_crcErrorCount (w : HostWord) (s : State) : (putHostOp w s).crcErrorCount = s.crcErrorCount := rfl
@[simp] theorem putHostOp_lastCrcOk (w : HostWord) (s : State) : (putHostOp w s).lastCrcOk = s.lastCrcOk := rfl
@[simp] theorem putHostOp_mTypeId (w : HostWord) (s : State) : (putHostOp w s).mTypeId = s.mTypeId := rfl
@[simp] theorem putHostOp_mOpcode (w : HostWord) (s : State) : (putHostOp w s).mOpcode = s.mOpcode := rfl
@[simp] theorem putHostOp_mDataLen (w : HostWord) (s : State) : (putHostOp w s).mDataLen = s.mDataLen := rfl
@[simp] theorem putHostOp_mCrc (w : HostWord) (s : State) : (putHostOp w s).mCrc = s.mCrc := rfl
@[simp] theorem putHostOp_mSrcAddr (w : HostWord) (s : State) : (putHostOp w s).mSrcAddr = s.mSrcAddr := rfl
@[simp] theorem putHostOp_mData (w : HostWord) (s : State) : (putHostOp w s).mData = s.mData := rfl
@[simp] theorem putHostOp_fb (w : HostWord) (s : State) : (putHostOp w s).fb = s.fb := rfl
@[simp] theorem putHostOp_cfg (w : HostWord) (s : State) : (putHostOp w s).cfg = s.cfg := rfl
@[simp] theorem putHostOp_hostOps (w : HostWord) (s : State) : (putHostOp w s).hostOps = w :: s.hostOps := rfl
@[simp] theorem putHostOp_rdLog (w : HostWord) (s : State) : (putHostOp w s).rdLog = s.rdLog := rfl

/-! ### `writeReg`: the fields no host write reaches (43_host_port.md R172) -/

@[simp] theorem writeReg_status (s : State) (v : Word) (r : Reg) : (writeReg s v r).status = s.status := by
  cases r <;> rfl
@[simp] theorem writeReg_result (s : State) (v : Word) (r : Reg) : (writeReg s v r).result = s.result := by
  cases r <;> rfl
@[simp] theorem writeReg_crcErrorCount (s : State) (v : Word) (r : Reg) : (writeReg s v r).crcErrorCount = s.crcErrorCount := by
  cases r <;> rfl
@[simp] theorem writeReg_lastCrcOk (s : State) (v : Word) (r : Reg) : (writeReg s v r).lastCrcOk = s.lastCrcOk := by
  cases r <;> rfl
@[simp] theorem writeReg_cfg (s : State) (v : Word) (r : Reg) : (writeReg s v r).cfg = s.cfg := by
  cases r <;> rfl
@[simp] theorem writeReg_hostOps (s : State) (v : Word) (r : Reg) : (writeReg s v r).hostOps = s.hostOps := by
  cases r <;> rfl
@[simp] theorem writeReg_rdLog (s : State) (v : Word) (r : Reg) : (writeReg s v r).rdLog = s.rdLog := by
  cases r <;> rfl

/-! ### The state after reset (10_state.md R40) -/

@[simp] theorem resetWith_status (cfg : Config) (u : PowerOn) : (State.resetWith cfg u).status = 0 := rfl
@[simp] theorem resetWith_result (cfg : Config) (u : PowerOn) : (State.resetWith cfg u).result = 0 := rfl
@[simp] theorem resetWith_len (cfg : Config) (u : PowerOn) : (State.resetWith cfg u).len = 0 := rfl
@[simp] theorem resetWith_cap (cfg : Config) (u : PowerOn) : (State.resetWith cfg u).cap = 0 := rfl
@[simp] theorem resetWith_rangeOff (cfg : Config) (u : PowerOn) : (State.resetWith cfg u).rangeOff = 0 := rfl
@[simp] theorem resetWith_rangeLen (cfg : Config) (u : PowerOn) : (State.resetWith cfg u).rangeLen = 0 := rfl
@[simp] theorem resetWith_rpos (cfg : Config) (u : PowerOn) : (State.resetWith cfg u).rpos = 0 := rfl
@[simp] theorem resetWith_val (cfg : Config) (u : PowerOn) : (State.resetWith cfg u).val = u.val := rfl
@[simp] theorem resetWith_crcErrorCount (cfg : Config) (u : PowerOn) : (State.resetWith cfg u).crcErrorCount = 0 := rfl
@[simp] theorem resetWith_lastCrcOk (cfg : Config) (u : PowerOn) : (State.resetWith cfg u).lastCrcOk = false := rfl
@[simp] theorem resetWith_mTypeId (cfg : Config) (u : PowerOn) : (State.resetWith cfg u).mTypeId = u.mTypeId := rfl
@[simp] theorem resetWith_mOpcode (cfg : Config) (u : PowerOn) : (State.resetWith cfg u).mOpcode = u.mOpcode := rfl
@[simp] theorem resetWith_mDataLen (cfg : Config) (u : PowerOn) : (State.resetWith cfg u).mDataLen = u.mDataLen := rfl
@[simp] theorem resetWith_mCrc (cfg : Config) (u : PowerOn) : (State.resetWith cfg u).mCrc = u.mCrc := rfl
@[simp] theorem resetWith_mSrcAddr (cfg : Config) (u : PowerOn) : (State.resetWith cfg u).mSrcAddr = u.mSrcAddr := rfl
@[simp] theorem resetWith_mData (cfg : Config) (u : PowerOn) : (State.resetWith cfg u).mData = u.mData := rfl
@[simp] theorem resetWith_fb (cfg : Config) (u : PowerOn) : (State.resetWith cfg u).fb = u.fb := rfl
@[simp] theorem resetWith_cfg (cfg : Config) (u : PowerOn) : (State.resetWith cfg u).cfg = cfg := rfl
@[simp] theorem resetWith_hostOps (cfg : Config) (u : PowerOn) : (State.resetWith cfg u).hostOps = [] := rfl
@[simp] theorem resetWith_rdLog (cfg : Config) (u : PowerOn) : (State.resetWith cfg u).rdLog = [] := rfl

/-! ### Status numbers (30_encoding.md R80) -/

@[simp] theorem code_ok : Status.code .ok = 0x00 := rfl
@[simp] theorem code_invalidArgument : Status.code .invalidArgument = 0x01 := rfl
@[simp] theorem code_payloadTooLarge : Status.code .payloadTooLarge = 0x02 := rfl
@[simp] theorem code_bufferTooSmall : Status.code .bufferTooSmall = 0x03 := rfl
@[simp] theorem code_frameTooShort : Status.code .frameTooShort = 0x04 := rfl
@[simp] theorem code_malformedLength : Status.code .malformedLength = 0x05 := rfl
@[simp] theorem code_crcMismatch : Status.code .crcMismatch = 0x06 := rfl
@[simp] theorem code_wrongRole : Status.code .wrongRole = 0x07 := rfl
@[simp] theorem code_handlerTableFull : Status.code .handlerTableFull = 0x08 := rfl
@[simp] theorem code_marshalRefused : Status.code .marshalRefused = 0xFF := rfl

end Sys2Proof.Machine
end

