-- ==== Sys2Proof/Laws/Ops.lean ====
section
/-! SUPPORT. What each shared operation of Machine/Ops.lean can do, said once. -/

namespace Sys2Proof.Machine

@[simp] theorem onAccess_ok {α : Type} (a : α) (k : α → Answer) : onAccess (.ok a) k = k a := rfl

@[simp] theorem onAccess_error {α : Type} (f : Fault) (k : α → Answer) :
    onAccess (.error f) k = .fault f := rfl

/-- Going on from an access that answers: the access gave a value. -/
theorem onAccess_next {α : Type} {r : Except Fault α} {k : α → Answer} {t : State}
    (h : onAccess r k = .next t) : ∃ a, r = .ok a ∧ k a = .next t := by
  cases r with
  | ok a => exact ⟨a, rfl, h⟩
  | error f => exact nomatch h

theorem readFb_inside (s : State) (o k : Nat) (h : o + k ≤ 31) :
    readFb s o k = .ok (s.fb.readBytes o k) := if_pos h

theorem readFbByte_inside (s : State) (j : Nat) (h : j < 31) :
    readFbByte s j = .ok (s.fb.readByte j) := if_pos h

theorem writeFb_inside (s : State) (o : Nat) (bs : List Byte) (h : o + bs.length ≤ 31) :
    writeFb s o bs = .ok { s with fb := s.fb.writeBytes o bs } := if_pos h

theorem readMd_inside (s : State) (o k : Nat) (h : o + k ≤ 27) :
    readMd s o k = .ok (s.mData.readBytes o k) := if_pos h

theorem writeMd_inside (s : State) (o : Nat) (bs : List Byte) (h : o + bs.length ≤ 27) :
    writeMd s o bs = .ok { s with mData := s.mData.writeBytes o bs } := if_pos h

/-- Everything a read of FB can do (00_scope.md R10, 20_memory.md R50). -/
theorem readFb_cases (s : State) (o k : Nat) :
    (o + k ≤ 31 ∧ readFb s o k = .ok (s.fb.readBytes o k)) ∨
      (31 < o + k ∧ readFb s o k = .error (.fbOutOfRange o k)) := by
  by_cases h : o + k ≤ 31
  · exact .inl ⟨h, readFb_inside s o k h⟩
  · exact .inr ⟨by omega, if_neg h⟩

/-- Everything a write of FB can do. -/
theorem writeFb_cases (s : State) (o : Nat) (bs : List Byte) :
    (o + bs.length ≤ 31 ∧ writeFb s o bs = .ok { s with fb := s.fb.writeBytes o bs }) ∨
      (31 < o + bs.length ∧ writeFb s o bs = .error (.fbOutOfRange o bs.length)) := by
  by_cases h : o + bs.length ≤ 31
  · exact .inl ⟨h, writeFb_inside s o bs h⟩
  · exact .inr ⟨by omega, if_neg h⟩

/-- Everything a read of M_DATA can do. -/
theorem readMd_cases (s : State) (o k : Nat) :
    (o + k ≤ 27 ∧ readMd s o k = .ok (s.mData.readBytes o k)) ∨
      (27 < o + k ∧ readMd s o k = .error (.mdOutOfRange o k)) := by
  by_cases h : o + k ≤ 27
  · exact .inl ⟨h, readMd_inside s o k h⟩
  · exact .inr ⟨by omega, if_neg h⟩

/-- Everything a write of M_DATA can do. -/
theorem writeMd_cases (s : State) (o : Nat) (bs : List Byte) :
    (o + bs.length ≤ 27 ∧ writeMd s o bs = .ok { s with mData := s.mData.writeBytes o bs }) ∨
      (27 < o + bs.length ∧ writeMd s o bs = .error (.mdOutOfRange o bs.length)) := by
  by_cases h : o + bs.length ≤ 27
  · exact .inl ⟨h, writeMd_inside s o bs h⟩
  · exact .inr ⟨by omega, if_neg h⟩

/-- Everything taking the host's next operation can do. -/
theorem takeHostOp_cons (s : State) (w : HostWord) (rest : List HostWord) (h : s.hostOps = w :: rest) :
    takeHostOp s = some (w, { s with hostOps := rest }) := by
  simp [takeHostOp, h]

theorem takeHostOp_nil (s : State) (h : s.hostOps = []) : takeHostOp s = none := by
  simp [takeHostOp, h]

@[simp] theorem takeHostOp_putHostOp (w : HostWord) (s : State) :
    takeHostOp (putHostOp w s) = some (w, s) := rfl

end Sys2Proof.Machine
end

