-- ==== Sys2Proof/Laws/Operands.lean ====
section
/-! SUPPORT. Little-endian sequences and the register map. -/

namespace Sys2Proof.Machine

/-! ### Little-endian values -/

@[simp] theorem leBytes_length (v : Word) (k : Nat) : (leBytes v k).length = k := by
  simp [leBytes]

theorem getElem_leBytes (v : Word) (k i : Nat) (h : i < (leBytes v k).length) :
    (leBytes v k)[i] = byteOf v i := by
  simp [leBytes]

theorem leBytes_one (v : Word) : leBytes v 1 = [byteOf v 0] := rfl

theorem leBytes_two (v : Word) : leBytes v 2 = [byteOf v 0, byteOf v 1] := rfl

theorem leBytes_four (v : Word) : leBytes v 4 = [byteOf v 0, byteOf v 1, byteOf v 2, byteOf v 3] := rfl

@[simp] theorem leValue_nil : leValue [] = 0 := rfl

theorem leValue_cons (b : Byte) (bs : List Byte) :
    leValue (b :: bs) = b.setWidth 32 ||| (leValue bs <<< 8) := rfl

/-! ### The register map (10_state.md R22) -/

/-- A register's number names it. -/
theorem regOfNumber_regNumber (r : Reg) : regOfNumber (regNumber r) = some r := by
  cases r with
  | mData i => revert i; decide
  | fb j => revert j; decide
  | _ => decide

/-- A number that names a register is that register's number. -/
theorem regNumber_of_regOfNumber (n : Byte) (r : Reg) (h : regOfNumber n = some r) : regNumber r = n := by
  have key : ∀ m : Fin 256,
      ((regOfNumber (BitVec.ofNat 8 m.val)).map regNumber).all (· == BitVec.ofNat 8 m.val) = true := by
    set_option maxRecDepth 4000 in decide
  have hn : BitVec.ofNat 8 n.toFin.val = n := by simp
  have := key n.toFin
  rw [hn, h] at this
  simpa using this

/-- Two registers with one number are one register. -/
theorem regNumber_injective (r r' : Reg) (h : regNumber r = regNumber r') : r = r' := by
  have h1 := regOfNumber_regNumber r
  rw [h, regOfNumber_regNumber r'] at h1
  exact (Option.some.inj h1).symm

@[simp] theorem readNumber_regNumber (s : State) (r : Reg) : readNumber s (regNumber r) = readReg s r := by
  simp [readNumber, regOfNumber_regNumber]

/-- The only write-trigger is CMD, number 0x00. -/
theorem regAccess_wt_iff (r : Reg) : regAccess r = .wt ↔ r = .cmd := by
  cases r <;> simp [regAccess]

/-- What an RW register shows after a write: the low bits of the value, as many as it is wide (R171). -/
theorem readReg_writeReg_same (s : State) (v : Word) (r : Reg) (h : regAccess r = .rw) :
    readReg (writeReg s v r) r = (v.setWidth (regWidth r)).setWidth 32 := by
  cases r <;> simp_all [regAccess, readReg, writeReg, regWidth]

/-- A write to one register shows in no other. -/
theorem readReg_writeReg_ne (s : State) (v : Word) (r r' : Reg) (h : r' ≠ r) :
    readReg (writeReg s v r) r' = readReg s r' := by
  cases r <;> cases r' <;>
    first
    | rfl
    | exact absurd rfl h
    | (simp only [readReg, writeReg]
       rw [Memory.readByte_writeByte_ne]
       intro hij
       exact h (by rw [Fin.ext hij]))

/-- A host write keeps both arrays canonical. -/
theorem writeReg_wf (s : State) (v : Word) (r : Reg) (hm : s.mData.wf 27 = true) (hf : s.fb.wf 31 = true) :
    (writeReg s v r).mData.wf 27 = true ∧ (writeReg s v r).fb.wf 31 = true := by
  cases r with
  | mData i => exact ⟨Memory.wf_writeByte 27 _ _ _ hm i.isLt, hf⟩
  | fb j => exact ⟨hm, Memory.wf_writeByte 31 _ _ _ hf j.isLt⟩
  | _ => exact ⟨hm, hf⟩

end Sys2Proof.Machine
end

