-- ==== Sys2Proof/Laws/Codec.lean ====
section
/-! SUPPORT. What each command's shared operation answers, in one equation: bounds already discharged. -/

namespace Sys2Proof.Machine

theorem crc8Default_nil : crc8Default [] = 0 := rfl

theorem crc8Default_append (bs cs : List Byte) :
    crc8Default (bs ++ cs) = cs.foldl crcUpdate (crc8Default bs) := by
  simp [crc8Default, List.foldl_append]

theorem crc8_standard (cfg : Config) (bs : List Byte) (h : cfg.crc = .default) :
    crc8 cfg bs = crc8Default bs := by
  simp [crc8, h]

theorem crc8_other (cfg : Config) (bs : List Byte) (k : Nat) (h : cfg.crc = .other k) :
    crc8 cfg bs = Config.otherCrc8 k bs := by
  simp [crc8, h]

/-- Everything the command CRC8 does (40_crc.md R107). -/
theorem execCrc8_eq (s : State) : execCrc8 s = .next
    (if 31 < s.rangeOff.toNat + s.rangeLen.toNat then raise .invalidArgument s
     else done (crc8 s.cfg (s.fb.readBytes s.rangeOff.toNat s.rangeLen.toNat)).toNat s) := by
  unfold execCrc8
  by_cases h : 31 < s.rangeOff.toNat + s.rangeLen.toNat
  · simp [h]
  · simp [h, readFb_inside s _ _ (Nat.not_lt.mp h)]

/-- The header and payload bytes ENCODE writes before the CRC (41_frame_codec.md R121). -/
def encodeBody (s : State) : List Byte :=
  [s.mTypeId, s.mOpcode, s.mDataLen] ++ s.mData.readBytes 0 s.mDataLen.toNat

theorem encodeBody_length (s : State) : (encodeBody s).length = 3 + s.mDataLen.toNat := by
  simp [encodeBody]; omega

/-- Everything ENCODE does (R121): a refused check, or the body and its CRC in FB from offset 0. -/
theorem execEncode_eq (s : State) : execEncode s = .next
    (if 31 < s.cap.toNat then raise .invalidArgument s
     else if 27 < s.mDataLen.toNat then raise .payloadTooLarge s
     else if s.cap.toNat < 4 + s.mDataLen.toNat then raise .bufferTooSmall s
     else done (4 + s.mDataLen.toNat) (setLen (4 + s.mDataLen.toNat)
       { s with fb := s.fb.writeBytes 0 (encodeBody s ++ [crc8 s.cfg (encodeBody s)]) })) := by
  unfold execEncode
  by_cases h1 : 31 < s.cap.toNat
  · simp [h1]
  by_cases h2 : 27 < s.mDataLen.toNat
  · simp [h1, h2]
  by_cases h3 : s.cap.toNat < 4 + s.mDataLen.toNat
  · simp [h1, h2, h3]
  have hl := encodeBody_length s
  have hb : [s.mTypeId, s.mOpcode, s.mDataLen] ++ s.mData.readBytes 0 s.mDataLen.toNat = encodeBody s := rfl
  have hr : (s.fb.writeBytes 0 (encodeBody s)).readBytes 0 (3 + s.mDataLen.toNat) = encodeBody s := by
    rw [← hl]; exact Memory.readBytes_writeBytes_same _ _ _
  simp only [h1, h2, h3, if_false]
  rw [readMd_inside s 0 _ (by omega), onAccess_ok, hb, writeFb_inside s 0 _ (by omega), onAccess_ok,
    readFb_inside _ 0 _ (by omega), onAccess_ok]
  dsimp only
  rw [hr, writeFb_inside _ _ _ (by simp; omega), onAccess_ok]
  simp only [Memory.writeBytes_append, hl, Nat.zero_add]

/-- Everything DECODE and DECODE.C do (R130), `ctx` the `C` bit: one of four errors, or the message. -/
theorem decodeFrame_eq (ctx : Bool) (s : State) : decodeFrame ctx s = .next
    (if 31 < s.len.toNat then raise .invalidArgument s
     else if s.len.toNat < 4 then raise .frameTooShort s
     else if s.len.toNat < 4 + (s.fb.readByte 2).toNat then raise .malformedLength s
     else if crc8 s.cfg (s.fb.readBytes 0 (3 + (s.fb.readByte 2).toNat))
         ≠ s.fb.readByte (3 + (s.fb.readByte 2).toNat) then
       raise .crcMismatch (if ctx then noteCrcError s else s)
     else
       let s2 := setMessage (s.fb.readByte 0) (s.fb.readByte 1) (s.fb.readByte 2)
         (s.fb.readByte (3 + (s.fb.readByte 2).toNat))
         { s with mData := s.mData.writeBytes 0 (s.fb.readBytes 3 (s.fb.readByte 2).toNat) }
       done (4 + (s.fb.readByte 2).toNat) (if ctx then noteCrcOk s2 else s2)) := by
  unfold decodeFrame
  by_cases h1 : 31 < s.len.toNat
  · simp [h1]
  by_cases h2 : s.len.toNat < 4
  · simp [h1, h2]
  simp only [h1, h2, if_false]
  rw [readFbByte_inside s 2 (by omega), onAccess_ok]
  by_cases h3 : s.len.toNat < 4 + (s.fb.readByte 2).toNat
  · simp [h3]
  simp only [h3, if_false]
  rw [readFb_inside s 0 _ (by omega), onAccess_ok, readFbByte_inside s _ (by omega), onAccess_ok]
  by_cases h4 : crc8 s.cfg (s.fb.readBytes 0 (3 + (s.fb.readByte 2).toNat))
      ≠ s.fb.readByte (3 + (s.fb.readByte 2).toNat)
  · rw [if_pos h4, if_pos h4]
  rw [if_neg h4, if_neg h4]
  rw [readFbByte_inside s 0 (by omega), onAccess_ok, readFbByte_inside s 1 (by omega), onAccess_ok,
    readFb_inside s 3 _ (by omega), onAccess_ok, writeMd_inside s 0 _ (by simp; omega), onAccess_ok]

/-- Everything a PUT does (42_payload_marshal.md R151). -/
theorem putBytes_eq (k : Nat) (s : State) : putBytes k s = .next
    (if 27 < s.mDataLen.toNat + k then raise .marshalRefused s
     else done (s.mDataLen.toNat + k) (setDataLen (s.mDataLen.toNat + k)
       { s with mData := s.mData.writeBytes s.mDataLen.toNat (leBytes s.val k) })) := by
  unfold putBytes
  by_cases h : 27 < s.mDataLen.toNat + k
  · simp [h]
  · simp only [h, if_false]
    rw [writeMd_inside s _ _ (by simp; omega), onAccess_ok]

/-- Everything a GET does (R154): its two tests are one against the smaller of M_DATA_LEN and 27. -/
theorem getBytes_eq (k : Nat) (s : State) : getBytes k s = .next
    (if s.mDataLen.toNat < s.rpos.toNat + k ∨ 27 < s.rpos.toNat + k then raise .marshalRefused s
     else done (s.rpos.toNat + k)
       (setRead (leValue (s.mData.readBytes s.rpos.toNat k)) (s.rpos.toNat + k) s)) := by
  unfold getBytes
  by_cases h1 : s.mDataLen.toNat < s.rpos.toNat + k
  · simp [h1]
  by_cases h2 : 27 < s.rpos.toNat + k
  · simp [h1, h2]
  · simp only [h1, h2, if_false, or_self]
    rw [readMd_inside s _ _ (by omega), onAccess_ok]

end Sys2Proof.Machine
end

