-- ==== Sys2Proof/Laws/Step.lean ====
section
/-! SUPPORT. The host port and the step, said once: what a write, a command byte and a step answer. -/

namespace Sys2Proof.Machine

/-! ### The arms of exec, and each command's shared operation -/

theorem exec_rd (reg : Byte) (s : State) : exec (.rd reg) s = execRd reg s := rfl

theorem exec_wr (reg : Byte) (value : Word) (s : State) : exec (.wr reg value) s = execWr reg value s := rfl

theorem exec_crc8 (s : State) : exec (.crc8) s = execCrc8 s := rfl

theorem exec_encode (s : State) : exec (.encode) s = execEncode s := rfl

theorem exec_decode (s : State) : exec (.decode) s = execDecode s := rfl

theorem exec_decodeC (s : State) : exec (.decodeC) s = execDecodeC s := rfl

theorem exec_put8 (s : State) : exec (.put8) s = execPut8 s := rfl

theorem exec_put16 (s : State) : exec (.put16) s = execPut16 s := rfl

theorem exec_put32 (s : State) : exec (.put32) s = execPut32 s := rfl

theorem exec_get8 (s : State) : exec (.get8) s = execGet8 s := rfl

theorem exec_get16 (s : State) : exec (.get16) s = execGet16 s := rfl

theorem exec_get32 (s : State) : exec (.get32) s = execGet32 s := rfl

theorem exec_decode_shared (s : State) : exec .decode s = decodeFrame false s := rfl

theorem exec_decodeC_shared (s : State) : exec .decodeC s = decodeFrame true s := rfl

theorem exec_put8_shared (s : State) : exec .put8 s = putBytes 1 s := rfl

theorem exec_put16_shared (s : State) : exec .put16 s = putBytes 2 s := rfl

theorem exec_put32_shared (s : State) : exec .put32 s = putBytes 4 s := rfl

theorem exec_get8_shared (s : State) : exec .get8 s = getBytes 1 s := rfl

theorem exec_get16_shared (s : State) : exec .get16 s = getBytes 2 s := rfl

theorem exec_get32_shared (s : State) : exec .get32 s = getBytes 4 s := rfl

theorem exec_put_shared (w : MarshalWidth) (s : State) : exec w.put.toInstr s = putBytes w.bytes s := by
  cases w <;> rfl

theorem exec_get_shared (w : MarshalWidth) (s : State) : exec w.get.toInstr s = getBytes w.bytes s := by
  cases w <;> rfl

/-! ### The command map (30_encoding.md R78, R79) -/

@[simp] theorem ofByte_byte (c : Command) : Command.ofByte c.byte = some c := by
  cases c <;> rfl

/-- A listed byte is its command's byte. -/
theorem byte_of_ofByte (b : Byte) (c : Command) (h : Command.ofByte b = some c) : c.byte = b := by
  have key : ∀ m : Fin 256,
      ((Command.ofByte (BitVec.ofNat 8 m.val)).map Command.byte).all (· == BitVec.ofNat 8 m.val) = true := by
    set_option maxRecDepth 4000 in decide
  have hn : BitVec.ofNat 8 b.toFin.val = b := by simp
  have := key b.toFin
  rw [hn, h] at this
  simpa using this

/-- The bytes the well-formedness check names are those of the map. -/
theorem ofByte_eq_none_iff (b : Byte) : Command.ofByte b = none ↔ listedCommandBytes.contains b = false := by
  have key : ∀ m : Fin 256, (Command.ofByte (BitVec.ofNat 8 m.val)).isNone =
      !(listedCommandBytes.contains (BitVec.ofNat 8 m.val)) := by
    set_option maxRecDepth 4000 in decide
  have hn : BitVec.ofNat 8 b.toFin.val = b := by simp
  have := key b.toFin
  rw [hn] at this
  cases h : Command.ofByte b <;> simp_all

/-! ### The host port -/

/-- A read of any number answers, and changes only the list of returned values (43_host_port.md R170). -/
theorem execRd_eq (reg : Byte) (s : State) :
    execRd reg s = .next { s with rdLog := s.rdLog ++ [readNumber s reg] } := rfl

/-- A write to an RW register (R171). -/
theorem execWr_rw (r : Reg) (v : Word) (s : State) (h : regAccess r = .rw) :
    execWr (regNumber r) v s = .next (writeReg s v r) := by
  simp [execWr, regOfNumber_regNumber, h]

/-- A write to a read-only register (R171). -/
theorem execWr_ro (r : Reg) (v : Word) (s : State) (h : regAccess r = .ro) :
    execWr (regNumber r) v s = .next s := by
  simp [execWr, regOfNumber_regNumber, h]

/-- A write to a reserved number (10_state.md R33). -/
theorem execWr_reserved (n : Byte) (v : Word) (s : State) (h : regOfNumber n = none) :
    execWr n v s = .next s := by
  simp [execWr, h]

/-- A write to CMD (R173). -/
theorem execWr_cmd (v : Word) (s : State) : execWr 0x00 v s = runCommandByte (commandByte v) s := rfl

theorem runCommandByte_listed (b : Byte) (c : Command) (s : State) (h : Command.ofByte b = some c) :
    runCommandByte b s = runCommand c s := by
  simp [runCommandByte, h]

theorem runCommandByte_reserved (b : Byte) (s : State) (h : Command.ofByte b = none) :
    runCommandByte b s = .next (raise .invalidArgument s) := by
  simp [runCommandByte, h]

/-- A command run by a write is the instruction's own meaning. -/
theorem runCommand_eq_exec (c : Command) (s : State) : runCommand c s = exec c.toInstr s := by
  cases c <;> rfl

/-- Everything a write can do: store to an RW register, run a listed command, raise InvalidArgument for a
reserved one, or nothing (R171, R173). -/
theorem execWr_cases (n : Byte) (v : Word) (s : State) :
    (∃ r, regAccess r = .rw ∧ n = regNumber r ∧ execWr n v s = .next (writeReg s v r)) ∨
    (∃ c, n = 0x00 ∧ Command.ofByte (commandByte v) = some c ∧ execWr n v s = runCommand c s) ∨
    (n = 0x00 ∧ Command.ofByte (commandByte v) = none ∧ execWr n v s = .next (raise .invalidArgument s)) ∨
    execWr n v s = .next s := by
  cases hn : regOfNumber n with
  | none => exact .inr (.inr (.inr (execWr_reserved n v s hn)))
  | some r =>
    have hnum := regNumber_of_regOfNumber n r hn
    cases hr : regAccess r with
    | rw => exact .inl ⟨r, hr, hnum.symm, by rw [← hnum]; exact execWr_rw r v s hr⟩
    | ro => exact .inr (.inr (.inr (by rw [← hnum]; exact execWr_ro r v s hr)))
    | wt =>
      have hcmd := (regAccess_wt_iff r).mp hr
      subst hcmd
      have h0 : n = 0x00 := hnum.symm
      subst h0
      cases hc : Command.ofByte (commandByte v) with
      | some c =>
        exact .inr (.inl ⟨c, rfl, rfl, by rw [execWr_cmd, runCommandByte_listed _ c _ hc]⟩)
      | none =>
        exact .inr (.inr (.inl ⟨rfl, rfl, by rw [execWr_cmd, runCommandByte_reserved _ _ hc]⟩))

/-! ### Host sequences -/

@[simp] theorem runOps_nil (s : State) : runOps [] s = .next s := rfl

theorem runOps_single (i : Instr) (s : State) : runOps [i] s = exec i s := by
  simp only [runOps]
  cases exec i s <;> rfl

theorem runOps_cons_next (i : Instr) (rest : List Instr) (s t : State) (h : exec i s = .next t) :
    runOps (i :: rest) s = runOps rest t := by
  simp [runOps, h]

/-- Sequences issued one after the other are one sequence. -/
theorem runOps_append_next (is js : List Instr) (s t : State) (h : runOps is s = .next t) :
    runOps (is ++ js) s = runOps js t := by
  induction is generalizing s with
  | nil => simp [runOps] at h; simp [h]
  | cons i rest ih =>
    simp only [List.cons_append, runOps] at h ⊢
    cases hi : exec i s with
    | next u => rw [hi] at h; exact ih u h
    | fault f => rw [hi] at h; exact nomatch h
    | refused r => rw [hi] at h; exact nomatch h

@[simp] theorem andThen_next {τ : Type} (s : State) (k : State → Host.Outcome τ Fault Refusal) :
    andThen (.next s) k = k s := rfl

/-- Going on from a host sequence that answers: it reached a state. -/
theorem andThen_answers {τ : Type} {o : Answer} {k : State → Host.Outcome τ Fault Refusal} {t : τ}
    (h : andThen o k = .next t) : ∃ s, o = .next s ∧ k s = .next t := by
  cases o with
  | next s => exact ⟨s, rfl, h⟩
  | fault f => exact nomatch h
  | refused r => exact nomatch h

end Sys2Proof.Machine
end

