-- ==== Sys2Proof/Laws/Environment.lean ====
section
/-! SUPPORT. What the host sequences of the assembler and the environment leave, said once. -/

namespace Sys2Proof.Machine

/-- A host write to an RW register (43_host_port.md R171). -/
theorem exec_wr_reg (r : Reg) (v : Word) (s : State) (h : regAccess r = .rw) :
    exec (.wr (regNumber r) v) s = .next (writeReg s v r) := execWr_rw r v s h

theorem exec_wr_fb (j : Nat) (h : j < 31) (b : Byte) (s : State) :
    exec (.wr (BitVec.ofNat 8 (0x40 + j)) (b.setWidth 32)) s = .next { s with fb := s.fb.writeByte j b } := by
  have := execWr_rw (.fb ⟨j, h⟩) (b.setWidth 32) s rfl
  simpa [exec_wr, regNumber, writeReg] using this

theorem exec_wr_mData (i : Nat) (h : i < 27) (b : Byte) (s : State) :
    exec (.wr (BitVec.ofNat 8 (0x20 + i)) (b.setWidth 32)) s = .next { s with mData := s.mData.writeByte i b } := by
  have := execWr_rw (.mData ⟨i, h⟩) (b.setWidth 32) s rfl
  simpa [exec_wr, regNumber, writeReg] using this

/-- Bytes written to consecutive register numbers of FB (30_encoding.md R83, `LDFB`). -/
theorem runOps_writesFrom_fb (j : Nat) (bs : List Byte) (s : State) (h : j + bs.length ≤ 31) :
    runOps (writesFrom (0x40 + j) bs) s = .next { s with fb := s.fb.writeBytes j bs } := by
  induction bs generalizing j s with
  | nil => rfl
  | cons b bs ih =>
    simp only [List.length_cons] at h
    rw [writesFrom, runOps_cons_next _ _ _ _ (exec_wr_fb j (by omega) b s), Nat.add_assoc,
      ih (j + 1) _ (by omega)]
    rfl

/-- Bytes written to consecutive register numbers of M_DATA (R83, `LDMSG`). -/
theorem runOps_writesFrom_mData (i : Nat) (bs : List Byte) (s : State) (h : i + bs.length ≤ 27) :
    runOps (writesFrom (0x20 + i) bs) s = .next { s with mData := s.mData.writeBytes i bs } := by
  induction bs generalizing i s with
  | nil => rfl
  | cons b bs ih =>
    simp only [List.length_cons] at h
    rw [writesFrom, runOps_cons_next _ _ _ _ (exec_wr_mData i (by omega) b s), Nat.add_assoc,
      ih (i + 1) _ (by omega)]
    rfl

/-- The host places a received frame: its first 31 bytes in FB, their number in LEN. -/
theorem runOps_loadFrameOps (frame : List Byte) (s : State) :
    runOps (loadFrameOps frame) s = .next { s with
      fb := s.fb.writeBytes 0 (frame.take 31), len := BitVec.ofNat 8 (min frame.length 31) } := by
  unfold loadFrameOps
  rw [runOps_append_next _ _ _ _ (runOps_writesFrom_fb 0 (frame.take fbSize) s (by simp [fbSize]))]
  have hm : min frame.length 31 < 256 := by omega
  have hb : ((BitVec.ofNat 32 (min frame.length fbSize)).setWidth 8 : Byte) =
      BitVec.ofNat 8 (min frame.length 31) := by
    apply BitVec.eq_of_toNat_eq
    simp [fbSize]
  simp only [runOps]
  show Host.Outcome.next (writeReg _ _ Reg.len) = _
  simp only [writeReg, hb]

/-- The host writes a message into the message registers. -/
theorem runOps_loadMessageOps (m : Message) (s : State) :
    runOps (loadMessageOps m) s = .next { s with
      mTypeId := m.typeId, mOpcode := m.opcode, mDataLen := m.dataLen
      mData := s.mData.writeBytes 0 (m.data.take 27) } := by
  unfold loadMessageOps
  rw [runOps_append_next _ _ s
    { s with mTypeId := m.typeId, mOpcode := m.opcode, mDataLen := m.dataLen }]
  · exact runOps_writesFrom_mData 0 (m.data.take maxPayload) _ (by simp [maxPayload])
  · show runOps [.wr (regNumber .mTypeId) _, .wr (regNumber .mOpcode) _, .wr (regNumber .mDataLen) _] s = _
    rw [runOps_cons_next _ _ _ _ (exec_wr_reg .mTypeId _ s rfl), runOps_cons_next _ _ _ _ (exec_wr_reg .mOpcode _ _ rfl),
      runOps_cons_next _ _ _ _ (exec_wr_reg .mDataLen _ _ rfl)]
    simp [writeReg]

/-- The reply path's host sequence is one ENCODE of the message's registers (44_environment.md R190). -/
theorem runOps_replyOps (m : Message) (capacity : Byte) (s : State) :
    runOps (loadMessageOps m ++ [.wr 0x04 (capacity.setWidth 32), .encode]) s = execEncode { s with
      mTypeId := m.typeId, mOpcode := m.opcode, mDataLen := m.dataLen
      mData := s.mData.writeBytes 0 (m.data.take 27), cap := capacity } := by
  rw [runOps_append_next _ _ _ _ (runOps_loadMessageOps m s)]
  show runOps [.wr (regNumber .cap) _, _] _ = _
  rw [runOps_cons_next _ _ _ _ (exec_wr_reg .cap _ _ rfl), runOps_single, exec_encode]
  simp [writeReg]

/-- The receive path's host sequence is one DECODE.C of the frame in FB (R186). -/
theorem runOps_receiveOps (frame : List Byte) (s : State) :
    runOps (loadFrameOps frame ++ [.decodeC]) s = decodeFrame true { s with
      fb := s.fb.writeBytes 0 (frame.take 31), len := BitVec.ofNat 8 (min frame.length 31) } := by
  rw [runOps_append_next _ _ _ _ (runOps_loadFrameOps frame s), runOps_single, exec_decodeC_shared]

/-- The scanner's host sequence is one DECODE of the frame in FB (R193). -/
theorem runOps_scanOps (frame : List Byte) (s : State) :
    runOps (loadFrameOps frame ++ [.decode]) s = decodeFrame false { s with
      fb := s.fb.writeBytes 0 (frame.take 31), len := BitVec.ofNat 8 (min frame.length 31) } := by
  rw [runOps_append_next _ _ _ _ (runOps_loadFrameOps frame s), runOps_single, exec_decode_shared]

/-- Registering a handler: overwritten in place, put into a free slot, or the table is full (44_environment.md R184). -/
theorem registerHandler_cases (slots : Nat) (ctx : Context) (e : HandlerEntry) :
    (ctx.handlers.any (fun h => h.opcode == e.opcode) = true ∧ registerHandler slots ctx e =
      .ok { ctx with handlers := ctx.handlers.map (fun h => if h.opcode = e.opcode then e else h) }) ∨
    (ctx.handlers.any (fun h => h.opcode == e.opcode) = false ∧ ctx.handlers.length < slots ∧
      registerHandler slots ctx e = .ok { ctx with handlers := ctx.handlers ++ [e] }) ∨
    (ctx.handlers.any (fun h => h.opcode == e.opcode) = false ∧ slots ≤ ctx.handlers.length ∧
      registerHandler slots ctx e = .error .handlerTableFull) := by
  unfold registerHandler
  cases h : ctx.handlers.any (fun h => h.opcode == e.opcode)
  · by_cases hs : ctx.handlers.length < slots
    · exact .inr (.inl ⟨rfl, hs, by simp [hs]⟩)
    · exact .inr (.inr ⟨rfl, by omega, by simp [hs]⟩)
  · exact .inl ⟨rfl, by simp⟩

end Sys2Proof.Machine
end

