-- ==== Sys2Proof/Laws/PerInstr.lean ====
section
/-! SUPPORT. Per instruction: the decoder reads back what the encoder writes. -/

namespace Sys2Proof.Machine

/-! ### The fields of a host word (30_encoding.md R81) -/

theorem getLsbD_hostWord (we : Bool) (reg : Byte) (v : Word) (i : Nat) :
    (hostWord we reg v).getLsbD i = if i < 32 then v.getLsbD i
      else if i - 32 < 8 then reg.getLsbD (i - 32) else (BitVec.ofBool we).getLsbD (i - 32 - 8) := by
  have h1 : (hostWord we reg v).getLsbD i =
      ((BitVec.ofBool we ++ reg) ++ v : BitVec (1 + 8 + 32)).getLsbD i := rfl
  rw [h1, BitVec.getLsbD_append, BitVec.getLsbD_append]

@[simp] theorem hostWe_hostWord (we : Bool) (reg : Byte) (v : Word) : hostWe (hostWord we reg v) = we := by
  rw [hostWe, getLsbD_hostWord]
  cases we <;> simp

@[simp] theorem hostReg_hostWord (we : Bool) (reg : Byte) (v : Word) : hostReg (hostWord we reg v) = reg := by
  apply BitVec.eq_of_getLsbD_eq
  intro i hi
  simp [hostReg, getLsbD_hostWord, hi]

@[simp] theorem hostData_hostWord (we : Bool) (reg : Byte) (v : Word) : hostData (hostWord we reg v) = v := by
  apply BitVec.eq_of_getLsbD_eq
  intro i hi
  simp [hostData, getLsbD_hostWord, hi]

theorem decodeInstr_encodeCommand (c : Command) : decodeInstr (encodeCommand c) = c.toInstr := by
  cases c <;> decide

end Sys2Proof.Machine

namespace Sys2Proof.Laws.RoundTrip

/-- Decoding the encoding of a well-formed operation gives it back. -/
def Statement (i : Instr) : Prop := i.WellFormed → decodeInstr (encodeInstr i) = i

theorem rd (reg : Byte) : Statement (.rd reg) := by
  intro _
  simp [encodeInstr, decodeInstr]

theorem wr (reg : Byte) (value : Word) : Statement (.wr reg value) := by
  intro h
  simp only [encodeInstr, decodeInstr, Machine.hostWe_hostWord, Machine.hostReg_hostWord,
    Machine.hostData_hostWord, if_true]
  split
  · next h0 =>
    have hn : Command.ofByte (commandByte value) = none := by
      rw [Machine.ofByte_eq_none_iff]
      simpa [Instr.WellFormed, Instr.wf, h0, commandByte] using h
    rw [hn]
  · rfl

theorem crc8 : Statement .crc8 := fun _ => Machine.decodeInstr_encodeCommand .crc8

theorem encode : Statement .encode := fun _ => Machine.decodeInstr_encodeCommand .encode

theorem decode : Statement .decode := fun _ => Machine.decodeInstr_encodeCommand .decode

theorem decodeC : Statement .decodeC := fun _ => Machine.decodeInstr_encodeCommand .decodeC

theorem put8 : Statement .put8 := fun _ => Machine.decodeInstr_encodeCommand .put8

theorem put16 : Statement .put16 := fun _ => Machine.decodeInstr_encodeCommand .put16

theorem put32 : Statement .put32 := fun _ => Machine.decodeInstr_encodeCommand .put32

theorem get8 : Statement .get8 := fun _ => Machine.decodeInstr_encodeCommand .get8

theorem get16 : Statement .get16 := fun _ => Machine.decodeInstr_encodeCommand .get16

theorem get32 : Statement .get32 := fun _ => Machine.decodeInstr_encodeCommand .get32

end Sys2Proof.Laws.RoundTrip
end

