-- ==== Sys2Proof/Tests/Slice0.lean ====
section
/-! SUPPORT. The model's own tests: spec vectors of 95_test_vectors.md, one step each, and a witness for the hypotheses of every statement. -/

namespace Sys2Proof.Tests

set_option Elab.async false

open Sys2Proof Sys2Proof.Machine

/-! ### Helpers -/

/-- The next state of an answer. -/
def nextOf : Answer → Option State
  | .next t => some t
  | .fault _ => none
  | .refused _ => none

/-- The state after one operation. -/
def after (i : Instr) (s : State) : State := (nextOf (exec i s)).getD s

/-- The operation answers a next state. -/
def runs (i : Instr) (s : State) : Bool := (nextOf (exec i s)).isSome

theorem exec_after {i : Instr} {s : State} (h : runs i s = true) : exec i s = .next (after i s) := by
  unfold runs after at *
  cases hx : exec i s <;> simp_all [nextOf]

/-- Reset with these bytes at the start of `FB`, and `LEN`. -/
def withFrame (bs : List Byte) (len : Byte) : State :=
  { State.reset with fb := Memory.writeBytes [] 0 bs, len := len }

/-- Reset with a message in the message registers, and `CAP`. -/
def withMessage (t o n : Byte) (ds : List Byte) (cap : Byte) : State :=
  { State.reset with
    mTypeId := t, mOpcode := o, mDataLen := n, mData := Memory.writeBytes [] 0 ds, cap := cap }

/-- Reset with a payload length and `VAL` (the PUT vectors). -/
def putState (d : Byte) (v : Word) : State := { State.reset with mDataLen := d, val := v }

/-- Reset with payload bytes, a length and `RPOS` (the GET vectors). -/
def getState (ds : List Byte) (n p : Byte) : State :=
  { State.reset with mData := Memory.writeBytes [] 0 ds, mDataLen := n, rpos := p, val := 0x55 }

/-- The frame of V-ENC-1. -/
def frame1 : List Byte := [0x10, 0x02, 0x02, 0xAA, 0xBB, 0x7A]

/-- The payload 00 01 … 1A of V-ENC-3. -/
def longPayload : List Byte := (List.range 27).map (BitVec.ofNat 8)

/-- The frame of V-ENC-3. -/
def longFrame : List Byte := [0x01, 0x7F, 0x1B] ++ longPayload ++ [0x3C]

/-! ### WellFormed: a listed command byte is not spelled `wr 0x00` -/

theorem test_wf_refuses_listed_command : Instr.wf (.wr 0x00 0x02) = false ∧ Instr.wf (.wr 0x00 0x101) = false :=
  by decide +kernel

theorem test_wf_accepts : Instr.wf (.wr 0x00 0x00) = true ∧ Instr.wf (.wr 0x03 0x02) = true := by decide +kernel

/-! ### Decoding: words written out from 30_encoding.md R78, R81 -/

theorem test_decode_rd : decodeInstr 0b00100010100000000000000000000000000000000#41 = .rd 0x45 := by decide +kernel
theorem test_decode_wr : decodeInstr 0b10001001000000000000000000000000000000010#41 = .wr 0x12 2 := by decide +kernel
theorem test_decode_crc8 : decodeInstr 0b10000000000000000000000000000000000000001#41 = .crc8 := by decide +kernel
theorem test_decode_encode : decodeInstr 0b10000000000000000000000000000000000000010#41 = .encode := by decide +kernel
theorem test_decode_decode : decodeInstr 0b10000000000000000000000000000000000000011#41 = .decode := by decide +kernel
theorem test_decode_decodeC : decodeInstr 0b10000000000000000000000000000000000010011#41 = .decodeC := by decide +kernel
theorem test_decode_put8 : decodeInstr 0b10000000000000000000000000000000000000100#41 = .put8 := by decide +kernel
theorem test_decode_put16 : decodeInstr 0b10000000000000000000000000000000000000101#41 = .put16 := by decide +kernel
theorem test_decode_put32 : decodeInstr 0b10000000000000000000000000000000000000110#41 = .put32 := by decide +kernel
theorem test_decode_get8 : decodeInstr 0b10000000000000000000000000000000000001000#41 = .get8 := by decide +kernel
theorem test_decode_get16 : decodeInstr 0b10000000000000000000000000000000000001001#41 = .get16 := by decide +kernel
theorem test_decode_get32 : decodeInstr 0b10000000000000000000000000000000000001010#41 = .get32 := by decide +kernel

/-- V-HOST-2's word: bits 31:8 of a listed command are ignored. -/
theorem test_decode_ignores_high_bits : decodeInstr 0x10000000101#41 = .crc8 := by decide +kernel

theorem test_decode_reserved_byte : decodeInstr 0x10000000007#41 = .wr 0x00 0x07 := by decide +kernel

theorem test_table_command_bytes :
    [0x01, 0x02, 0x03, 0x13, 0x04, 0x05, 0x06, 0x08, 0x09, 0x0A].map (decodeTableWord 8) =
      [some .crc8, some .encode, some .decode, some .decodeC, some .put8, some .put16, some .put32, some .get8,
        some .get16, some .get32] := by decide +kernel

theorem test_table_host_words :
    decodeTableWord 48 0x00100000000 = some (.rd 0x01) ∧ decodeTableWord 48 0x108DDCCBBAA = some (.wr 0x08 0xDDCCBBAA) ∧
    decodeTableWord 8 0x07 = none ∧ decodeTableWord 48 0x20000000000 = none := by decide +kernel

/-! ### One operation each -/

/-- P1 row 9. -/
theorem test_rd_frame_byte : (after (.rd 0x45) (withFrame frame1 6)).rdLog = [0x7A] := by decide +kernel

/-- V-HOST-6. -/
theorem test_rd_reserved_reads_zero : (after (.rd 0x5F) (withFrame frame1 6)).rdLog = [0x00] := by decide +kernel

/-- V-HOST-5. -/
theorem test_wr_truncates : (after (.wr 0x12 0x1FF) State.reset).mDataLen = 0xFF := by decide +kernel

/-- V-HOST-3. -/
theorem test_wr_status_ignored : after (.wr 0x01 0x55) (withFrame frame1 6) = withFrame frame1 6 := by decide +kernel

/-- V-CRC-20. -/
theorem test_crc8_frame :
    (fun t => (t.status, t.result)) (after .crc8 { withFrame frame1 6 with rangeLen := 5 }) = (0x00, 0x7A) := by decide +kernel

/-- V-CRC-29. -/
theorem test_crc8_range_does_not_wrap :
    (fun t => (t.status, t.result)) (after .crc8 { withFrame frame1 6 with rangeOff := 255, rangeLen := 255 }) =
      (0x01, 0x00) := by decide +kernel

/-- V-ENC-1. -/
theorem test_encode :
    (fun t => (t.status, t.result, t.len, t.fb.readBytes 0 7)) (after .encode (withMessage 0x10 0x02 2 [0xAA, 0xBB] 31)) =
      (0x00, 0x06, 0x06, frame1 ++ [0x00]) := by decide +kernel

/-- V-ENC-14. -/
theorem test_encode_capacity_first :
    (fun t => (t.status, t.result, t.fb)) (after .encode (withMessage 0x10 0x02 28 [] 32)) = (0x01, 0x00, []) := by decide +kernel

/-- V-DEC-15. -/
theorem test_decode_ok :
    after .decode (withFrame frame1 6) =
      { withFrame frame1 6 with
        result := 6, mTypeId := 0x10, mOpcode := 0x02, mDataLen := 0x02, mData := [(0, 0xAA), (1, 0xBB)]
        mCrc := 0x7A } := by decide +kernel

/-- V-DEC-14. -/
theorem test_decode_mismatch_keeps_statistics :
    (fun t => (t.status, t.crcErrorCount, t.lastCrcOk)) (after .decode
      { withFrame [0x10, 0x02, 0x02, 0xAB, 0xBB, 0x7A] 6 with lastCrcOk := true }) = (0x06, 0x00000000, true) := by decide +kernel

/-- V-DEC-12. -/
theorem test_decodeC_shortened :
    after .decodeC (withFrame [0x10, 0x02, 0x00, 0x88, 0x15] 5) =
      { withFrame [0x10, 0x02, 0x00, 0x88, 0x15] 5 with
        result := 4, mTypeId := 0x10, mOpcode := 0x02, mDataLen := 0x00, mCrc := 0x88, lastCrcOk := true } := by decide +kernel

/-- V-DEC-13, both values of CNT_OVF. -/
theorem test_decodeC_counter_overflow :
    [CntOvf.wrap, CntOvf.saturate].map (fun o => (after .decodeC
      { withFrame [0x10, 0x02, 0x02, 0xAB, 0xBB, 0x7A] 6 with
        crcErrorCount := 0xFFFFFFFF, cfg := { Config.standard with cntOvf := o } }).crcErrorCount) =
      [0x00000000, 0xFFFFFFFF] := by decide +kernel

/-- V-PUT-5. -/
theorem test_put8 :
    (fun t => (t.status, t.result, t.mDataLen, t.mData)) (after .put8 (putState 26 0xA1B2C3D4)) =
      (0x00, 27, 27, [(26, 0xD4)]) := by decide +kernel

/-- V-PUT-11. -/
theorem test_put8_full :
    (fun t => (t.status, t.result, t.mDataLen, t.mData)) (after .put8 (putState 28 0xA1B2C3D4)) =
      (0xFF, 0, 28, []) := by decide +kernel

/-- V-PUT-9. -/
theorem test_put16 :
    (fun t => (t.status, t.result, t.mDataLen, t.mData)) (after .put16 (putState 24 0xA1B2C3D4)) =
      (0x00, 26, 26, [(24, 0xD4), (25, 0xC3)]) := by decide +kernel

/-- V-PUT-6. -/
theorem test_put16_full : (after .put16 (putState 26 0xA1B2C3D4)).status = 0xFF := by decide +kernel

/-- V-PUT-7. -/
theorem test_put32 :
    (fun t => (t.status, t.result, t.mDataLen, t.mData)) (after .put32 (putState 23 0xA1B2C3D4)) =
      (0x00, 27, 27, [(23, 0xD4), (24, 0xC3), (25, 0xB2), (26, 0xA1)]) := by decide +kernel

/-- V-PUT-10. -/
theorem test_put32_does_not_wrap : (after .put32 (putState 255 0xA1B2C3D4)).status = 0xFF := by decide +kernel

/-- V-GET-8. -/
theorem test_get8_zero_extends :
    (fun t => (t.status, t.result, t.val, t.rpos)) (after .get8 (getState [0xFF, 0xFF] 2 1)) =
      (0x00, 2, 0x000000FF, 2) := by decide +kernel

/-- V-GET-10. -/
theorem test_get8_exhausted :
    (fun t => (t.status, t.result, t.val, t.rpos)) (after .get8 (getState [0xFF, 0xFF] 2 3)) =
      (0xFF, 0, 0x00000055, 3) := by decide +kernel

/-- V-GET-1. -/
theorem test_get16 :
    (fun t => (t.status, t.result, t.val, t.rpos)) (after .get16 (getState [0x34, 0x12] 7 0)) =
      (0x00, 2, 0x00001234, 2) := by decide +kernel

/-- V-GET-12. -/
theorem test_get16_past_the_array :
    (fun t => (t.status, t.val, t.rpos)) (after .get16 (getState [] 30 26)) = (0xFF, 0x00000055, 26) := by decide +kernel

/-- V-GET-2. -/
theorem test_get32 :
    (fun t => (t.status, t.result, t.val, t.rpos)) (after .get32 (getState [0x34, 0x12, 0xAA, 0xBB, 0xCC, 0xDD] 7 2)) =
      (0x00, 6, 0xDDCCBBAA, 6) := by decide +kernel

/-- V-GET-14. -/
theorem test_get32_short : (after .get32 (getState [] 27 24)).status = 0xFF := by decide +kernel

/-- V-HOST-1. -/
theorem test_reserved_command :
    after (.wr 0x00 0x23) { withFrame frame1 6 with result := 6 } =
      { withFrame frame1 6 with status := 0x01, result := 0 } := by decide +kernel

/-! ### The step -/

/-- P3 row 17's command byte as the first operation after reset: GET16 with nothing to read. -/
theorem test_step_runs_table_word :
    (nextOf (step (State.reset.withFetchWord 8 0x09))).map (fun t => (t.status, t.hostOps)) = some (0xFF, []) := by decide +kernel

theorem test_step_runs_host_word :
    (nextOf (step (State.reset.withFetchWord 48 0x108DDCCBBAA))).map (fun t => (t.val, t.hostOps)) =
      some (0xDDCCBBAA, []) := by decide +kernel

theorem test_array_is_canonical :
    ((Memory.writeBytes [] 3 [1, 2, 3]).writeByte 4 0) = [(3, 1), (5, 3)] ∧
    Memory.wf 31 [(30, 0x01)] = true ∧ Memory.wf 31 [(31, 0x01)] = false ∧ Memory.wf 31 [(2, 0x00)] = false ∧
    Memory.wf 31 [(4, 0x01), (4, 0x02)] = false := by decide +kernel

/-! ### Witnesses: for every statement with hypotheses, states and operands that meet them together, clause by clause -/

theorem test_witness_DecodeEncodeAgree :
    Instr.WellFormed (.wr 0x00 0x00) ∧ Instr.WellFormed (.wr 0xFF 0xFFFFFFFF) ∧ Instr.WellFormed (.rd 0xFF) ∧
    Instr.WellFormed .get32 := by decide +kernel

theorem test_witness_HostWordFields :
    (0x01 : Byte) ≠ 0x00 ∧ commandByte 0x00 ≠ Command.crc8.byte ∧ commandByte 0x101 = Command.crc8.byte ∧
    commandByte 0xFFFFFF0A = Command.get32.byte ∧
    ∀ b ∈ [(0x00 : Byte), 0x07, 0x0B, 0x12, 0x14, 0xFF], ReservedCommandByte (commandByte (b.setWidth 32)) := by decide +kernel

theorem test_witness_StepRunsTheNextHostOperation :
    (State.reset.withFetchWord 8 0x13).hostOps = 0x10000000013#41 :: [] := by decide +kernel

theorem test_witness_IdleEngineChangesNothing : State.reset.hostOps = [] := by decide +kernel

/-- A state with both arrays filled to the end, a failed command behind it and a decode to come. -/
def busyState : State :=
  { withFrame longFrame 31 with
    mData := [(26, 0xFF)], status := 0x06, result := 0x00, hostOps := [0x10000000013#41] }

theorem test_witness_StepKeepsEngineInvariant :
    (busyState.mData.wf 27 = true ∧ busyState.fb.wf 31 = true ∧ busyState.status ∈ engineStatusCodes ∧
      (busyState.status ≠ 0x00 → busyState.result = 0x00)) ∧
    (nextOf (step busyState)).map (fun t => (t.status, t.result)) = some (0x00, 31) := by decide +kernel

theorem test_witness_ResetMeetsEngineInvariant :
    ({ PowerOn.zero with mData := [(26, 0xFF)], fb := [(0, 0x01), (30, 0xFF)] } : PowerOn).mData.wf 27 = true ∧
    ({ PowerOn.zero with mData := [(26, 0xFF)], fb := [(0, 0x01), (30, 0xFF)] } : PowerOn).fb.wf 31 = true := by
  decide +kernel

theorem test_witness_ProgramRunsInOrder :
    (∀ i ∈ [Instr.wr 0x03 4, .decodeC, .rd 0x01], i.WellFormed) ∧
    (assemble [.wr 0x03 4, .decodeC, .rd 0x01]) = [0x10300000004#41, 0x10000000013#41, 0x00100000000#41] := by
  decide +kernel

theorem test_witness_CommandsStraightAfterReset :
    27 < ({ PowerOn.zero with mDataLen := 28 } : PowerOn).mDataLen.toNat ∧
    ({ PowerOn.zero with mDataLen := 27 } : PowerOn).mDataLen.toNat ≤ 27 := by decide +kernel

theorem test_witness_ReadRule_WriteRule :
    (∀ n ∈ [0x0B, 0x0F, 0x15, 0x1F, 0x3B, 0x3F, 0x5F, 0xFF], ReservedNumber n) ∧
    (∀ n ∈ [0x0A, 0x10, 0x14, 0x20, 0x3A, 0x40, 0x5E], ¬ ReservedNumber n) ∧
    (0 < 27 ∧ 26 < 27 ∧ 0 < 31 ∧ 30 < 31) ∧
    (0x13 : Word).setWidth 8 = Command.decodeC.byte ∧ ReservedCommandByte ((0x23 : Word).setWidth 8) := by
  decide +kernel

theorem test_witness_WrittenRegisterReadsBack :
    ((0x3A : Byte) ≠ 0x00 ∧ runs (.wr 0x3A 0x1FF) busyState = true ∧
      regOfNumber 0x3A = some (.mData 26) ∧ regAccess (.mData 26) = .rw) ∧
    ((0x0A : Byte) ≠ 0x00 ∧ runs (.wr 0x0A 0x1FF) busyState = true ∧
      regOfNumber 0x0A = some .lastCrcOk ∧ regAccess .lastCrcOk ≠ .rw) ∧
    (0xFF : Byte) ≠ 0x5F := by decide +kernel

theorem test_witness_Crc8CommandRule :
    let s := withFrame frame1 6
    (31 < ({ s with rangeOff := 1, rangeLen := 31 } : State).rangeOff.toNat +
      ({ s with rangeOff := 1, rangeLen := 31 } : State).rangeLen.toNat) ∧
    (({ s with rangeOff := 31, rangeLen := 0 } : State).rangeOff.toNat +
      ({ s with rangeOff := 31, rangeLen := 0 } : State).rangeLen.toNat ≤ 31) := by decide +kernel

theorem test_witness_Crc8ReadsOnlyItsRange :
    (∀ j, j < 5 → Memory.readByte (Memory.writeBytes [] 0 [0x10, 0x02, 0x02, 0xAA, 0xBB, 0xFF]) j =
      (withFrame frame1 6).fb.readByte j) ∧
    Memory.writeBytes [] 0 [0x10, 0x02, 0x02, 0xAA, 0xBB, 0xFF] ≠ (withFrame frame1 6).fb ∧
    runs .crc8 { withFrame frame1 6 with rangeOff := 0, rangeLen := 5 } = true := by decide +kernel

theorem test_witness_DefaultCrcLaws : ([0x01, 0x02] : List Byte).length = ([0x80, 0xFF] : List Byte).length := by
  decide +kernel

theorem test_witness_DefaultCrcDetectsSingleBit :
    (0 < 8 * (([0x01] : List Byte).length + 1) ∧
      flipBit ([0x01] ++ [crc8Default [0x01]]) 0 = [0x00] ++ [0x07]) ∧
    (15 < 8 * (([0x01] : List Byte).length + 1) ∧
      flipBit ([0x01] ++ [crc8Default [0x01]]) 15 = [0x01] ++ [0x87]) := by decide +kernel

theorem test_witness_EncodeRule :
    (31 < (withMessage 0x10 0x02 2 [] 32).cap.toNat) ∧
    ((withMessage 0x10 0x02 28 [] 31).cap.toNat ≤ 31 ∧ 27 < (withMessage 0x10 0x02 28 [] 31).mDataLen.toNat) ∧
    ((withMessage 0x10 0x02 2 [] 5).cap.toNat ≤ 31 ∧ (withMessage 0x10 0x02 2 [] 5).mDataLen.toNat ≤ 27 ∧
      (withMessage 0x10 0x02 2 [] 5).cap.toNat < 4 + (withMessage 0x10 0x02 2 [] 5).mDataLen.toNat) ∧
    ((withMessage 0x10 0x02 27 [] 31).cap.toNat ≤ 31 ∧ (withMessage 0x10 0x02 27 [] 31).mDataLen.toNat ≤ 27 ∧
      4 + (withMessage 0x10 0x02 27 [] 31).mDataLen.toNat ≤ (withMessage 0x10 0x02 27 [] 31).cap.toNat) ∧
    ((withMessage 0x10 0x02 0 [] 4).cap.toNat ≤ 31 ∧
      4 + (withMessage 0x10 0x02 0 [] 4).mDataLen.toNat ≤ (withMessage 0x10 0x02 0 [] 4).cap.toNat) := by decide +kernel

theorem test_witness_EncodeReadsOnlyItsInputs :
    let s := withMessage 0x10 0x02 2 [0xAA, 0xBB] 31
    let s' := { withMessage 0x10 0x02 2 [0xAA, 0xBB, 0xCC] 31 with fb := [(9, 0x77)], len := 9 }
    (s'.cfg = s.cfg ∧ s'.cap = s.cap ∧ s'.mTypeId = s.mTypeId ∧ s'.mOpcode = s.mOpcode ∧ s'.mDataLen = s.mDataLen) ∧
    (∀ i, i < 2 → s'.mData.readByte i = s.mData.readByte i) ∧ s'.mData ≠ s.mData ∧
    runs .encode s = true ∧ runs .encode s' = true ∧ (after .encode s).status = 0x00 := by decide +kernel

theorem test_witness_EncodeReadsOnlyItsInputs_long :
    ¬ (withMessage 0x10 0x02 28 [] 31).mDataLen.toNat ≤ 27 ∧ runs .encode (withMessage 0x10 0x02 28 [] 31) = true ∧
    runs .encode (withMessage 0x10 0x02 28 [0x01] 31) = true := by decide +kernel

theorem test_witness_EncodeStaysInsideCapacity :
    runs .encode (withMessage 0x10 0x02 2 [0xAA, 0xBB] 6) = true ∧
    runs .encode (withMessage 0x10 0x02 2 [0xAA, 0xBB] 5) = true ∧
    (after .encode (withMessage 0x10 0x02 2 [0xAA, 0xBB] 5)).status ≠ 0x00 := by decide +kernel

/-- The five ways a decode can go, as both rules and the order of checks have them. -/
theorem test_witness_DecodeRule_DecodeCRule :
    (31 < (withFrame frame1 32).len.toNat) ∧
    ((withFrame frame1 3).len.toNat < 4) ∧
    (let s := withFrame [0x10, 0x02, 0x1C] 31;
      4 ≤ s.len.toNat ∧ s.len.toNat ≤ 31 ∧ s.len.toNat < 4 + (s.fb.readByte 2).toNat) ∧
    (let s := withFrame [0x10, 0x02, 0x02, 0xAB, 0xBB, 0x7A] 6;
      4 ≤ s.len.toNat ∧ s.len.toNat ≤ 31 ∧ 4 + (s.fb.readByte 2).toNat ≤ s.len.toNat ∧
      crc8 s.cfg (s.fb.readBytes 0 (3 + (s.fb.readByte 2).toNat)) ≠ s.fb.readByte (3 + (s.fb.readByte 2).toNat)) ∧
    (let s := withFrame longFrame 31;
      4 ≤ s.len.toNat ∧ s.len.toNat ≤ 31 ∧ 4 + (s.fb.readByte 2).toNat ≤ s.len.toNat ∧
      crc8 s.cfg (s.fb.readBytes 0 (3 + (s.fb.readByte 2).toNat)) = s.fb.readByte (3 + (s.fb.readByte 2).toNat)) ∧
    (let s := withFrame [0x10, 0x02, 0x00, 0x88] 4;
      4 ≤ s.len.toNat ∧ s.len.toNat ≤ 31 ∧ 4 + (s.fb.readByte 2).toNat ≤ s.len.toNat ∧
      crc8 s.cfg (s.fb.readBytes 0 (3 + (s.fb.readByte 2).toNat)) =
        s.fb.readByte (3 + (s.fb.readByte 2).toNat)) := by decide +kernel

theorem test_witness_DecodeChecksInOrder :
    runs .decode (withFrame frame1 6) = true ∧ runs .decodeC (withFrame frame1 32) = true ∧
    runs .decodeC (withFrame frame1 3) = true ∧ runs .decode (withFrame frame1 5) = true ∧
    runs .decode (withFrame [0x10, 0x02, 0x00, 0xAA, 0xBB, 0x7A] 6) = true := by decide +kernel

/-- V-DEC-6 against V-DEC-1: bytes 6 and up differ, and no byte that is read is there. -/
theorem test_witness_DecodeReadsOnlyTheFrame :
    let s := withFrame frame1 10
    let fb' := Memory.writeBytes [] 0 (frame1 ++ [0x01, 0x02, 0x03, 0x04])
    DecodeReads s 2 ∧ DecodeReads s 5 ∧ fb' ≠ s.fb ∧
    (∀ j, DecodeReads s j → fb'.readByte j = s.fb.readByte j) ∧ runs .decodeC s = true := by
  refine ⟨⟨by decide +kernel, by decide +kernel, .inl rfl⟩,
    ⟨by decide +kernel, by decide +kernel, .inr ⟨by decide +kernel, by decide +kernel⟩⟩, by decide +kernel,
    fun j hj => ?_, by decide +kernel⟩
  have hn : ((withFrame frame1 10).fb.readByte 2).toNat = 2 := by decide +kernel
  obtain ⟨-, -, hj⟩ := hj
  have hj6 : j < 6 := by omega
  exact (show ∀ k, k < 6 → Memory.readByte (Memory.writeBytes [] 0 (frame1 ++ [0x01, 0x02, 0x03, 0x04])) k =
    (withFrame frame1 10).fb.readByte k by decide +kernel) j hj6

theorem test_witness_DecodeMayBeRepeated :
    runs .decode (withFrame frame1 6) = true ∧
    runs .decodeC (withFrame [0x10, 0x02, 0x02, 0xAB, 0xBB, 0x7A] 6) = true ∧
    (after .decodeC (withFrame [0x10, 0x02, 0x02, 0xAB, 0xBB, 0x7A] 6)).status = 0x06 := by decide +kernel

theorem test_witness_EncodeThenDecodeGivesTheMessageBack :
    ((withMessage 0x01 0x7F 27 longPayload 31).mDataLen.toNat ≤ 27 ∧
      4 + (withMessage 0x01 0x7F 27 longPayload 31).mDataLen.toNat ≤ (withMessage 0x01 0x7F 27 longPayload 31).cap.toNat ∧
      (withMessage 0x01 0x7F 27 longPayload 31).cap.toNat ≤ 31) ∧
    ((withMessage 0x10 0x02 0 [] 4).mDataLen.toNat ≤ 27 ∧
      4 + (withMessage 0x10 0x02 0 [] 4).mDataLen.toNat ≤ (withMessage 0x10 0x02 0 [] 4).cap.toNat ∧
      (withMessage 0x10 0x02 0 [] 4).cap.toNat ≤ 31) := by decide +kernel

/-- The encoded frame of a one-byte payload (V-DEC-12's) with one bit flipped. -/
def corrupted (j b : Nat) : State :=
  let t := after .encode (withMessage 0x10 0x02 1 [0x88] 31)
  { t with fb := t.fb.writeByte j (t.fb.readByte j ^^^ (1#8 <<< b)) }

/-- The three cases: the last bit of the CRC byte (4), a raised length (2, bit 7), a lowered one (2, bit 0). -/
theorem test_witness_SingleBitCorruption :
    let s := withMessage 0x10 0x02 1 [0x88] 31
    (runs .encode s = true ∧ (after .encode s).status = 0x00 ∧ s.cfg.crc = .default) ∧
    ((4 < 4 + s.mDataLen.toNat ∧ 7 < 8 ∧ 4 ≠ 2) ∧ runs .decodeC (corrupted 4 7) = true) ∧
    (s.mDataLen.toNat < (s.mDataLen ^^^ (1#8 <<< 7)).toNat ∧ runs .decodeC (corrupted 2 7) = true) ∧
    ((s.mDataLen ^^^ (1#8 <<< 0)).toNat < s.mDataLen.toNat ∧ runs .decodeC (corrupted 2 0) = true) ∧
    (after .decodeC (corrupted 2 0)).status = 0x00 := by decide +kernel

theorem test_witness_ChecksumOfAnEncodedFrame :
    (runs .encode (withMessage 0x10 0x02 2 [0xAA, 0xBB] 31) = true ∧
      (after .encode (withMessage 0x10 0x02 2 [0xAA, 0xBB] 31)).status = 0x00 ∧
      (withMessage 0x10 0x02 2 [0xAA, 0xBB] 31).cfg.crc = .default) ∧
    (let s := withFrame frame1 6;
      runs .decode s = true ∧ (after .decode s).status = 0x00 ∧
      runs .crc8 { s with rangeOff := 0, rangeLen := BitVec.ofNat 8 (3 + (s.fb.readByte 2).toNat) } = true) := by
  decide +kernel

/-- For each width, the last offset that fits and the first that does not. -/
theorem test_witness_PutRules :
    (27 < (putState 27 0).mDataLen.toNat + 1 ∧ (putState 26 0).mDataLen.toNat + 1 ≤ 27) ∧
    (27 < (putState 26 0).mDataLen.toNat + 2 ∧ (putState 25 0).mDataLen.toNat + 2 ≤ 27) ∧
    (27 < (putState 24 0).mDataLen.toNat + 4 ∧ (putState 23 0).mDataLen.toNat + 4 ≤ 27) := by decide +kernel

/-- For each width, past M_DATA_LEN, past the array, and the last offset that fits. -/
theorem test_witness_GetRules :
    (∀ x ∈ [((2 : Byte), (2 : Byte), 1), (30, 27, 1), (2, 1, 2), (30, 26, 2), (27, 24, 4), (255, 24, 4)],
      min (getState [] x.1 x.2.1).mDataLen.toNat 27 < (getState [] x.1 x.2.1).rpos.toNat + x.2.2) ∧
    (∀ x ∈ [((30 : Byte), (26 : Byte), 1), (27, 25, 2), (27, 23, 4)],
      (getState [] x.1 x.2.1).rpos.toNat + x.2.2 ≤ min (getState [] x.1 x.2.1).mDataLen.toNat 27) := by decide +kernel

theorem test_witness_PutStoresOnlyItsBytes :
    runs MarshalWidth.w32.put.toInstr (putState 23 0xA1B2C3D4) = true ∧
    (after MarshalWidth.w32.put.toInstr (putState 23 0xA1B2C3D4)).status = 0x00 ∧
    runs MarshalWidth.w8.put.toInstr (putState 26 0xA1B2C3D4) = true ∧
    (after MarshalWidth.w8.put.toInstr (putState 26 0xA1B2C3D4)).status = 0x00 ∧
    (after MarshalWidth.w16.put.toInstr (putState 0 0xA1B2C3D4)).status = 0x00 := by decide +kernel

theorem test_witness_MarshalReadsOnlyItsOperands :
    (MarshalWidth.w8.truncate 0x12345678 = MarshalWidth.w8.truncate (putState 6 0xABCDEF78).val ∧
      runs MarshalWidth.w8.put.toInstr (putState 6 0xABCDEF78) = true) ∧
    (∀ a, (getState [0x34, 0x12] 2 0).rpos.toNat ≤ a → a < (getState [0x34, 0x12] 2 0).rpos.toNat + 2 →
      a < (getState [0x34, 0x12] 2 0).mDataLen.toNat →
      Memory.readByte [(0, 0x34), (1, 0x12), (2, 0xFF)] a = (getState [0x34, 0x12] 2 0).mData.readByte a) ∧
    runs MarshalWidth.w16.get.toInstr (getState [0x34, 0x12] 2 0) = true := by
  refine ⟨by decide +kernel, fun a _ h _ => ?_, by decide +kernel⟩
  exact (show ∀ k, k < 2 → Memory.readByte [(0, 0x34), (1, 0x12), (2, 0xFF)] k =
    (getState [0x34, 0x12] 2 0).mData.readByte k by decide +kernel) a (by
      have : (getState [0x34, 0x12] 2 0).rpos.toNat = 0 := by decide +kernel
      omega)

theorem test_witness_PutThenGetGivesTheValueBack :
    (putState 26 0).mDataLen.toNat + MarshalWidth.w8.bytes ≤ 27 ∧
    (putState 25 0).mDataLen.toNat + MarshalWidth.w16.bytes ≤ 27 ∧
    (putState 23 0).mDataLen.toNat + MarshalWidth.w32.bytes ≤ 27 := by decide +kernel

/-- P3's fields, and a payload of 27 bytes. -/
theorem test_witness_MarshalAcrossTheCodec :
    (([(MarshalWidth.w16, 0x1234), (.w32, 0xDDCCBBAA), (.w8, 0x7F)] : List (MarshalWidth × Word)).map
      (fun p => p.1.bytes)).sum ≤ 27 ∧
    (((List.replicate 6 (MarshalWidth.w32, 0xFFFFFFFF)) ++ [(.w16, 1), (.w8, 2)] : List (MarshalWidth × Word)).map
      (fun p => p.1.bytes)).sum = 27 := by decide +kernel

/-- DECODE.C, also spelled as a write to CMD, on each kind of status, and operations that are not DECODE.C. -/
theorem test_witness_OnlyDecodeWithContextTouchesStatistics :
    (Issues .decodeC .decodeC ∧ (after .decodeC (withFrame frame1 6)).status = 0x00 ∧
      (after .decodeC (withFrame frame1 5)).status = 0x05 ∧
      (after .decodeC (withFrame [0x00, 0x00, 0x00, 0x01] 4)).status = 0x06) ∧
    (Issues (.wr 0x00 0x113) .decodeC ∧ runs (.wr 0x00 0x113) busyState = true) ∧
    (¬ Issues .decode .decodeC ∧ runs .decode (withFrame [0x00, 0x00, 0x00, 0x01] 4) = true) ∧
    (¬ Issues (.wr 0x09 0x13) .decodeC ∧ runs (.wr 0x09 0x13) busyState = true) := by
  refine ⟨⟨.inl rfl, by decide +kernel⟩, ⟨.inr ⟨0x113, rfl, by decide +kernel⟩, by decide +kernel⟩,
    ⟨?_, by decide +kernel⟩, ⟨?_, by decide +kernel⟩⟩ <;> simp [Issues, Command.toInstr]

/-- Every kind of operation answers a next state. -/
theorem test_witness_RegistersOnlyTheHostWrites :
    runs (.rd 0x14) busyState = true ∧ runs (.wr 0x14 0x1FF) busyState = true ∧ runs (.wr 0x04 31) busyState = true ∧
    runs .encode busyState = true ∧ runs .decodeC busyState = true ∧ runs (.wr 0x00 0x13) busyState = true := by decide +kernel

theorem test_witness_ErrorsArePrecise :
    (Issues .encode .encode ∧ runs .encode (withMessage 0x10 0x02 28 [] 31) = true ∧
      (after .encode (withMessage 0x10 0x02 28 [] 31)).status ≠ 0x00) ∧
    (Issues .decodeC .decodeC ∧ runs .decodeC (withFrame [0x00, 0x00, 0x00, 0x01] 4) = true ∧
      (after .decodeC (withFrame [0x00, 0x00, 0x00, 0x01] 4)).status ≠ 0x00) ∧
    (ReservedCommandByte (commandByte 0x1FF) ∧ runs (.wr 0x00 0x1FF) busyState = true ∧
      (after (.wr 0x00 0x1FF) busyState).status ≠ 0x00) := by
  refine ⟨⟨.inl rfl, by decide +kernel⟩, ⟨.inl rfl, by decide +kernel⟩, by decide +kernel⟩

theorem test_witness_CommandWriteSets :
    (runs .crc8 busyState = true) ∧
    (runs .encode (withMessage 0x10 0x02 2 [0xAA, 0xBB] 6) = true ∧
      (after .encode (withMessage 0x10 0x02 2 [0xAA, 0xBB] 6)).status = 0x00) ∧
    (runs .decode (withFrame frame1 6) = true ∧ (after .decode (withFrame frame1 6)).status = 0x00) ∧
    (runs .decodeC (withFrame frame1 6) = true ∧ (after .decodeC (withFrame frame1 6)).status = 0x00) ∧
    (∀ w ∈ [MarshalWidth.w8, .w16, .w32],
      (runs w.put.toInstr (putState 0 1) = true ∧ (after w.put.toInstr (putState 0 1)).status = 0x00) ∧
      (runs w.get.toInstr (getState [1, 2, 3, 4] 4 0) = true ∧
        (after w.get.toInstr (getState [1, 2, 3, 4] 4 0)).status = 0x00)) := by decide +kernel

theorem test_witness_CanonicalArraysThatReadAlikeAreEqual :
    Memory.wf 31 (Memory.writeBytes [] 0 frame1) = true ∧
    Memory.wf 31 [(0, 0x10), (1, 0x02), (2, 0x02), (3, 0xAA), (4, 0xBB), (5, 0x7A)] = true ∧
    ∀ a, Memory.readByte (Memory.writeBytes [] 0 frame1) a =
      Memory.readByte [(0, 0x10), (1, 0x02), (2, 0x02), (3, 0xAA), (4, 0xBB), (5, 0x7A)] a :=
  ⟨by decide +kernel, by decide +kernel, fun a => by
    rw [show Memory.writeBytes [] 0 frame1 = [(0, 0x10), (1, 0x02), (2, 0x02), (3, 0xAA), (4, 0xBB), (5, 0x7A)] by
      decide +kernel]⟩

/-! ### The environment -/

/-- A peripheral at 0x08 with a generic callback and handlers for 0x02 and 0xFE, and a controller. -/
def peripheral : Context :=
  { contextInit .peripheral 0x08 with
    onReceive := some 1, onRequest := true
    handlers := [{ opcode := 0x02, callback := 5, userData := 9 }, { opcode := 0xFE, callback := 6, userData := 0 }] }

/-- What the host side left. -/
def received (ctx : Context) (frame : List Byte) : Option Received :=
  match handleReceive ctx frame State.reset with
  | .next r => some r
  | .fault _ => none
  | .refused _ => none

/-- V-ENV-1. -/
theorem test_receive_dispatches :
    (received peripheral frame1).map (fun r => (r.result, r.calls)) = some (0x00,
      [.generic 1 {
          typeId := 0x10, opcode := 0x02, dataLen := 2, payload := [0xAA, 0xBB], crc := 0x7A, sourceAddress := 0x08 },
        .handler 5 0x02 [0xAA, 0xBB] 2 9]) := by decide +kernel

/-- V-ENV-2, V-ENV-2b. -/
theorem test_receive_set_reply :
    (received peripheral [0x10, 0xFE, 0x01, 0x05, 0x29]).map (fun r => (r.context.requestedOpcode, r.calls)) =
      some (0x05, []) ∧
    (received peripheral [0x10, 0xFE, 0x00, 0x60]).map (fun r => (r.result, r.context, r.calls)) =
      some (0x00, peripheral, []) := by decide +kernel

/-- V-ENV-4. -/
theorem test_receive_controller :
    (received (contextInit .controller 0x08) frame1).map (fun r => (r.result, r.engine)) = some (0x07, State.reset) := by
  decide +kernel

/-- V-ENV-3's transport. -/
def answer3 (a : Byte) : List Byte :=
  if a = 0x08 then [0x10, 0x00, 0x00, 0xA2] else if a = 0x09 then [0x01, 0x02, 0x01, 0x03, 0x04] else []

/-- V-ENV-3. -/
theorem test_scan_precision :
    (match scan (fun a => a == 0x08 || a == 0x09) answer3 (fun _ => true) (scanAddresses 0x03 0x20) State.reset with
      | .next r => r.found
      | .fault _ => []
      | .refused _ => []) = [(0x08, 0x10)] := by decide +kernel

/-- V-ENV-3's transport under a strict criterion on the CRC byte: the one valid frame ends in 0xA2. -/
theorem test_scan_strict :
    [(0xA2 : Byte), 0xA3].map (fun c =>
      match scan (fun a => a == 0x08 || a == 0x09) answer3 (fun m => m.crc == c) (scanAddresses 0x03 0x20) State.reset with
      | .next r => r.found
      | .fault _ => []
      | .refused _ => []) = [[(0x08, 0x10)], []] := by decide +kernel

theorem test_witness_environment_frames :
    ((contextInit .controller 0x08).role = .controller ∧ peripheral.role = .peripheral) ∧
    (validFrame (crc8 State.reset.cfg) [0x10, 0xFE, 0x01, 0x05, 0x29] = true ∧
      ([0x10, 0xFE, 0x01, 0x05, 0x29] : List Byte).getD 1 0 = 0xFE) ∧
    (validFrame (crc8 State.reset.cfg) [0x10, 0xFE, 0x00, 0x60] = true ∧
      ([0x10, 0xFE, 0x00, 0x60] : List Byte).getD 2 0 = 0x00) ∧
    (validFrame (crc8 State.reset.cfg) longFrame = true ∧ longFrame.getD 1 0 ≠ 0xFE) ∧
    (validFrame (crc8 State.reset.cfg) (longFrame.take 30) = false ∧ (longFrame.take 30).length ≤ 31 ∧
      validFrame (crc8 State.reset.cfg) [] = false) := by decide +kernel

theorem test_witness_RegisterLastWriteWins :
    (findHandler peripheral 0x02 ≠ none ∧ peripheral.handlers.length < 3) ∧
    ((0xFE : Byte) ≠ 0x02 ∧ findHandler peripheral 0x03 = none ∧ 2 ≤ peripheral.handlers.length) ∧
    (match registerHandler 2 peripheral { opcode := 0x02, callback := 7, userData := 0 } with
      | .ok c => (findHandler c 0x02).map (fun h => h.callback)
      | .error _ => none) = some 7 ∧
    (match registerHandler 2 peripheral { opcode := 0x03, callback := 7, userData := 0 } with
      | .ok _ => none
      | .error e => some e) = some Status.handlerTableFull := by decide +kernel

/-- What `peripheral` replies with a message of `n` bytes into a buffer of `capacity` bytes. -/
def replied (n capacity : Byte) : Option Replied :=
  match buildReply peripheral (fun o => { typeId := 0x10, opcode := o, dataLen := n, data := [0xAA, 0xBB] }) capacity
    State.reset with
  | .next r => some r
  | .fault _ => none
  | .refused _ => none

/-- The reply of V-ENC-1's payload under the default `requested_opcode` 0. -/
theorem test_reply_is_encoded :
    (replied 2 6).map (fun r => (r.result, r.frame)) =
      some (0x00, [0x10, 0x00, 0x02, 0xAA, 0xBB, crc8Default [0x10, 0x00, 0x02, 0xAA, 0xBB]]) := by decide +kernel

/-- Each clause at its boundary: the role, the callback, and the four outcomes of the ENCODE. -/
theorem test_witness_BuildReplyRule :
    ((contextInit .controller 0x08).role = .controller ∧ (contextInit .peripheral 0x08).role = .peripheral ∧
      (contextInit .peripheral 0x08).onRequest = false) ∧
    (peripheral.role = .peripheral ∧ peripheral.onRequest = true) ∧
    (31 < (32 : Byte).toNat ∧ (31 : Byte).toNat ≤ 31 ∧ 27 < (28 : Byte).toNat ∧ (27 : Byte).toNat ≤ 27 ∧
      (30 : Byte).toNat < 4 + (27 : Byte).toNat ∧ 4 + (27 : Byte).toNat ≤ (31 : Byte).toNat ∧
      4 + (0 : Byte).toNat ≤ (4 : Byte).toNat) ∧
    [((2 : Byte), (32 : Byte)), (28, 31), (27, 30), (27, 31), (0, 4)].map
      (fun x => (replied x.1 x.2).map (fun r => (r.result, r.frame.length))) =
      [some (0x01, 0), some (0x02, 0), some (0x03, 0), some (0x00, 31), some (0x00, 4)] := by decide +kernel

theorem test_witness_RepliesPersist :
    (contextInit .peripheral 0x08).role = .peripheral ∧ (contextInit .peripheral 0x08).onRequest = false := by
  decide +kernel

end Sys2Proof.Tests
end

section
/-! Every operation and every step answers a next state (20_memory.md R50): the checks of a command come before
its accesses, so no access of it leaves its array. -/

namespace Sys2Proof.Machine

/-! ### The step, by what the host has issued -/

theorem step_of_hostOps_cons (s : State) (w : HostWord) (rest : List HostWord) (h : s.hostOps = w :: rest) :
    step s = exec (decodeInstr w) { s with hostOps := rest } := by
  simp only [step, takeHostOp_cons s w rest h]

theorem step_of_hostOps_nil (s : State) (h : s.hostOps = []) : step s = .next s := by
  simp only [step, takeHostOp_nil s h, idle]

/-! ### Everything answers a next state -/

/-- Each command answers: the equation of its shared operation has the bounds of every access discharged. -/
theorem exec_command_answers_next (c : Command) (s : State) : ∃ t, exec c.toInstr s = .next t := by
  cases c with
  | crc8 => exact ⟨_, execCrc8_eq s⟩
  | encode => exact ⟨_, execEncode_eq s⟩
  | decode => exact ⟨_, decodeFrame_eq false s⟩
  | decodeC => exact ⟨_, decodeFrame_eq true s⟩
  | put8 => exact ⟨_, putBytes_eq 1 s⟩
  | put16 => exact ⟨_, putBytes_eq 2 s⟩
  | put32 => exact ⟨_, putBytes_eq 4 s⟩
  | get8 => exact ⟨_, getBytes_eq 1 s⟩
  | get16 => exact ⟨_, getBytes_eq 2 s⟩
  | get32 => exact ⟨_, getBytes_eq 4 s⟩

/-- No host write fails (43_host_port.md R171); one that starts a command answers as the command does. -/
theorem execWr_answers_next (n : Byte) (v : Word) (s : State) : ∃ t, execWr n v s = .next t := by
  obtain ⟨r, _, _, hstore⟩ | ⟨c, _, _, hcommand⟩ | ⟨_, _, hreserved⟩ | hignored := execWr_cases n v s
  · exact ⟨_, hstore⟩
  · rw [hcommand, runCommand_eq_exec]
    exact exec_command_answers_next c s
  · exact ⟨_, hreserved⟩
  · exact ⟨_, hignored⟩

/-- An operation is a read, a write, or one of the commands. -/
theorem exec_answers_next (i : Instr) (s : State) : ∃ t, exec i s = .next t := by
  cases i with
  | rd reg => exact ⟨_, execRd_eq reg s⟩
  | wr reg value => exact execWr_answers_next reg value s
  | crc8 => exact exec_command_answers_next .crc8 s
  | encode => exact exec_command_answers_next .encode s
  | decode => exact exec_command_answers_next .decode s
  | decodeC => exact exec_command_answers_next .decodeC s
  | put8 => exact exec_command_answers_next .put8 s
  | put16 => exact exec_command_answers_next .put16 s
  | put32 => exact exec_command_answers_next .put32 s
  | get8 => exact exec_command_answers_next .get8 s
  | get16 => exact exec_command_answers_next .get16 s
  | get32 => exact exec_command_answers_next .get32 s

theorem step_answers_next (s : State) : ∃ t, step s = .next t := by
  cases hops : s.hostOps with
  | nil => exact ⟨s, step_of_hostOps_nil s hops⟩
  | cons w rest =>
    rw [step_of_hostOps_cons s w rest hops]
    exact exec_answers_next (decodeInstr w) { s with hostOps := rest }

/-- Settles O8: each operation's equation names its next state, and a step is such an operation or idle. -/
theorem everyStepAnswersNext : Obligations.EveryStepAnswersNext :=
  ⟨exec_answers_next, step_answers_next⟩

end Sys2Proof.Machine
end

section
/-! What an operation can do to the state of 10_state.md, said once: the kinds of operation (`exec_cases`), how each
shared operation of the commands ends (`…_cases`), and what a command may store before it ends (`CommandStores`). -/

namespace Sys2Proof.Machine

/-! ### The kinds of operation -/

theorem exec_issued {i : Instr} {c : Command} (h : Issues i c) (s : State) : exec i s = exec c.toInstr s := by
  obtain rfl | ⟨v, rfl, hv⟩ := h
  · rfl
  · rw [exec_wr, execWr_cmd, hv, runCommandByte_listed _ c s (ofByte_byte c), runCommand_eq_exec]

/-- Everything an operation can be: a read, a stored write, an issued command, a reserved command byte, or a write
that is ignored (43_host_port.md R170 to R173, 30_encoding.md R79). -/
theorem exec_cases (i : Instr) (s : State) :
    (∃ n, i = .rd n ∧ exec i s = .next { s with rdLog := s.rdLog ++ [readNumber s n] }) ∨
    (∃ r v, regAccess r = .rw ∧ i = .wr (regNumber r) v ∧ exec i s = .next (writeReg s v r)) ∨
    (∃ c, Issues i c) ∨
    exec i s = .next (raise .invalidArgument s) ∨
    exec i s = .next s := by
  cases i with
  | rd n => exact .inl ⟨n, rfl, execRd_eq n s⟩
  | wr n v =>
    obtain ⟨r, hrw, rfl, hstore⟩ | ⟨c, rfl, hc, -⟩ | ⟨-, -, hreserved⟩ | hignored := execWr_cases n v s
    · exact .inr (.inl ⟨r, v, hrw, rfl, hstore⟩)
    · exact .inr (.inr (.inl ⟨c, .inr ⟨v, rfl, (byte_of_ofByte _ c hc).symm⟩⟩))
    · exact .inr (.inr (.inr (.inl hreserved)))
    · exact .inr (.inr (.inr (.inr hignored)))
  | crc8 => exact .inr (.inr (.inl ⟨.crc8, .inl rfl⟩))
  | encode => exact .inr (.inr (.inl ⟨.encode, .inl rfl⟩))
  | decode => exact .inr (.inr (.inl ⟨.decode, .inl rfl⟩))
  | decodeC => exact .inr (.inr (.inl ⟨.decodeC, .inl rfl⟩))
  | put8 => exact .inr (.inr (.inl ⟨.put8, .inl rfl⟩))
  | put16 => exact .inr (.inr (.inl ⟨.put16, .inl rfl⟩))
  | put32 => exact .inr (.inr (.inl ⟨.put32, .inl rfl⟩))
  | get8 => exact .inr (.inr (.inl ⟨.get8, .inl rfl⟩))
  | get16 => exact .inr (.inr (.inl ⟨.get16, .inl rfl⟩))
  | get32 => exact .inr (.inr (.inl ⟨.get32, .inl rfl⟩))

/-! ### How each shared operation ends -/

/-- An error kind that a command of the engine raises (10_state.md R28, 60_exceptions.md R211). -/
abbrev Status.RaisedByEngine (e : Status) : Prop := e ≠ .ok ∧ e.code ∈ engineStatusCodes

theorem code_ne_zero_of_ne_ok {e : Status} (h : e ≠ .ok) : e.code ≠ 0x00 := by
  cases e with
  | ok => exact absurd rfl h
  | _ => decide

theorem raise_not_ok {e : Status} (he : e.RaisedByEngine) (s : State) : (raise e s).status ≠ 0x00 :=
  code_ne_zero_of_ne_ok he.1

theorem execCrc8_cases {s t : State} (h : execCrc8 s = .next t) :
    t = raise .invalidArgument s ∨
    t = done (crc8 s.cfg (s.fb.readBytes s.rangeOff.toNat s.rangeLen.toNat)).toNat s := by
  rw [execCrc8_eq, Host.Outcome.next.injEq] at h
  subst h
  split_ifs with hrange
  · exact .inl rfl
  · exact .inr rfl

/-- `s` with the frame of its message in FB, and its length in LEN (41_frame_codec.md R121, R126). -/
def withEncodedFrame (s : State) : State :=
  setLen (4 + s.mDataLen.toNat) { s with fb := s.fb.writeBytes 0 (encodeBody s ++ [crc8 s.cfg (encodeBody s)]) }

theorem execEncode_cases {s t : State} (h : execEncode s = .next t) :
    (∃ e : Status, e.RaisedByEngine ∧ t = raise e s) ∨
    (4 + s.mDataLen.toNat ≤ 31 ∧ t = done (4 + s.mDataLen.toNat) (withEncodedFrame s)) := by
  rw [execEncode_eq, Host.Outcome.next.injEq] at h
  subst h
  split_ifs with hcap hlen hroom
  · exact .inl ⟨.invalidArgument, by decide, rfl⟩
  · exact .inl ⟨.payloadTooLarge, by decide, rfl⟩
  · exact .inl ⟨.bufferTooSmall, by decide, rfl⟩
  · exact .inr ⟨by omega, rfl⟩

/-- `s` with the message of the frame in FB in its message registers (R136). -/
def withDecodedMessage (s : State) : State :=
  setMessage (s.fb.readByte 0) (s.fb.readByte 1) (s.fb.readByte 2) (s.fb.readByte (3 + (s.fb.readByte 2).toNat))
    { s with mData := s.mData.writeBytes 0 (s.fb.readBytes 3 (s.fb.readByte 2).toNat) }

theorem decodeFrame_cases {ctx : Bool} {s t : State} (h : decodeFrame ctx s = .next t) :
    (∃ e : Status, e.RaisedByEngine ∧ t = raise e s) ∨
    (ctx = true ∧ t = raise .crcMismatch (noteCrcError s)) ∨
    (4 + (s.fb.readByte 2).toNat ≤ 31 ∧ t = done (4 + (s.fb.readByte 2).toNat)
      (if ctx then noteCrcOk (withDecodedMessage s) else withDecodedMessage s)) := by
  rw [decodeFrame_eq, Host.Outcome.next.injEq] at h
  split_ifs at h with hlong hshort hlen hcrc hctx hctx
  · exact .inl ⟨.invalidArgument, by decide, h.symm⟩
  · exact .inl ⟨.frameTooShort, by decide, h.symm⟩
  · exact .inl ⟨.malformedLength, by decide, h.symm⟩
  · exact .inr (.inl ⟨hctx, h.symm⟩)
  · exact .inl ⟨.crcMismatch, by decide, h.symm⟩
  · exact .inr (.inr ⟨by omega, by rw [if_pos hctx]; exact h.symm⟩)
  · exact .inr (.inr ⟨by omega, by rw [if_neg hctx]; exact h.symm⟩)

theorem putBytes_cases {k : Nat} {s t : State} (h : putBytes k s = .next t) :
    t = raise .marshalRefused s ∨
    (s.mDataLen.toNat + k ≤ 27 ∧ t = done (s.mDataLen.toNat + k) (setDataLen (s.mDataLen.toNat + k)
      { s with mData := s.mData.writeBytes s.mDataLen.toNat (leBytes s.val k) })) := by
  rw [putBytes_eq, Host.Outcome.next.injEq] at h
  subst h
  split_ifs with hfull
  · exact .inl rfl
  · exact .inr ⟨by omega, rfl⟩

theorem getBytes_cases {k : Nat} {s t : State} (h : getBytes k s = .next t) :
    t = raise .marshalRefused s ∨
    t = done (s.rpos.toNat + k) (setRead (leValue (s.mData.readBytes s.rpos.toNat k)) (s.rpos.toNat + k) s) := by
  rw [getBytes_eq, Host.Outcome.next.injEq] at h
  subst h
  split_ifs with hend
  · exact .inl rfl
  · exact .inr rfl

/-! ### What a command may store before it ends -/

/-- The states a command may have made of `s` when it comes to write STATUS and RESULT (10_state.md R42). -/
inductive CommandStores (s : State) : State → Prop where
  /-- Every error but a counted one, and CRC8. -/
  | nothing : CommandStores s s
  /-- A DECODE.C that ends CrcMismatch. -/
  | crcError : CommandStores s (noteCrcError s)
  /-- ENCODE. -/
  | frame (n : Nat) (bs : List Byte) (h : bs.length ≤ 31) :
      CommandStores s (setLen n { s with fb := s.fb.writeBytes 0 bs })
  /-- DECODE. -/
  | message (t o n c : Byte) (bs : List Byte) (h : bs.length ≤ 27) :
      CommandStores s (setMessage t o n c { s with mData := s.mData.writeBytes 0 bs })
  /-- DECODE.C. -/
  | messageCrcOk (t o n c : Byte) (bs : List Byte) (h : bs.length ≤ 27) :
      CommandStores s (noteCrcOk (setMessage t o n c { s with mData := s.mData.writeBytes 0 bs }))
  /-- A PUT. -/
  | field (n : Nat) (bs : List Byte) (h : s.mDataLen.toNat + bs.length ≤ 27) :
      CommandStores s (setDataLen n { s with mData := s.mData.writeBytes s.mDataLen.toNat bs })
  /-- A GET. -/
  | read (v : Word) (p : Nat) : CommandStores s (setRead v p s)

/-- The two ways a command ends, from the state it has stored (00_scope.md R10). -/
inductive CommandEnds (u : State) : State → Prop where
  | raised (e : Status) (he : e.RaisedByEngine) : CommandEnds u (raise e u)
  | finished (r : Nat) : CommandEnds u (done r u)

theorem execCrc8_stores {s t : State} (h : execCrc8 s = .next t) : ∃ u, CommandStores s u ∧ CommandEnds u t := by
  obtain rfl | rfl := execCrc8_cases h
  · exact ⟨s, .nothing, .raised _ (by decide)⟩
  · exact ⟨s, .nothing, .finished _⟩

theorem execEncode_stores {s t : State} (h : execEncode s = .next t) :
    ∃ u, CommandStores s u ∧ CommandEnds u t := by
  obtain ⟨e, he, rfl⟩ | ⟨hfits, rfl⟩ := execEncode_cases h
  · exact ⟨s, .nothing, .raised e he⟩
  · exact ⟨_, .frame _ _ (by simp [encodeBody_length]; omega), .finished _⟩

theorem decodeFrame_stores {ctx : Bool} {s t : State} (h : decodeFrame ctx s = .next t) :
    ∃ u, CommandStores s u ∧ CommandEnds u t := by
  obtain ⟨e, he, rfl⟩ | ⟨-, rfl⟩ | ⟨hfits, rfl⟩ := decodeFrame_cases h
  · exact ⟨s, .nothing, .raised e he⟩
  · exact ⟨_, .crcError, .raised _ (by decide)⟩
  · have hpayload : (s.fb.readBytes 3 (s.fb.readByte 2).toNat).length ≤ 27 := by
      rw [Memory.readBytes_length]; omega
    cases ctx with
    | false => exact ⟨_, .message _ _ _ _ _ hpayload, .finished _⟩
    | true => exact ⟨_, .messageCrcOk _ _ _ _ _ hpayload, .finished _⟩

theorem putBytes_stores {k : Nat} {s t : State} (h : putBytes k s = .next t) :
    ∃ u, CommandStores s u ∧ CommandEnds u t := by
  obtain rfl | ⟨hfits, rfl⟩ := putBytes_cases h
  · exact ⟨s, .nothing, .raised _ (by decide)⟩
  · exact ⟨_, .field _ _ (by rw [leBytes_length]; exact hfits), .finished _⟩

theorem getBytes_stores {k : Nat} {s t : State} (h : getBytes k s = .next t) :
    ∃ u, CommandStores s u ∧ CommandEnds u t := by
  obtain rfl | rfl := getBytes_cases h
  · exact ⟨s, .nothing, .raised _ (by decide)⟩
  · exact ⟨_, .read _ _, .finished _⟩

/-- Every command stores what `CommandStores` allows, then ends in an error of the engine or Ok. -/
theorem exec_command_stores {c : Command} {s t : State} (h : exec c.toInstr s = .next t) :
    ∃ u, CommandStores s u ∧ CommandEnds u t := by
  cases c with
  | crc8 => exact execCrc8_stores h
  | encode => exact execEncode_stores h
  | decode => exact decodeFrame_stores (ctx := false) h
  | decodeC => exact decodeFrame_stores (ctx := true) h
  | put8 => exact putBytes_stores (k := 1) h
  | put16 => exact putBytes_stores (k := 2) h
  | put32 => exact putBytes_stores (k := 4) h
  | get8 => exact getBytes_stores (k := 1) h
  | get16 => exact getBytes_stores (k := 2) h
  | get32 => exact getBytes_stores (k := 4) h

end Sys2Proof.Machine
end

section
/-! The engine's invariant: every step keeps it, and the state after reset meets it (10_state.md R28, R29, R40). -/

namespace Sys2Proof.Machine

/-- A command stores inside its arrays only (20_memory.md R50), so both stay canonical. -/
theorem commandStores_keeps_wf {s u : State} (h : CommandStores s u) (hm : s.mData.wf 27 = true)
    (hf : s.fb.wf 31 = true) : u.mData.wf 27 = true ∧ u.fb.wf 31 = true := by
  cases h with
  | nothing => exact ⟨hm, hf⟩
  | crcError => exact ⟨hm, hf⟩
  | frame n bs h => exact ⟨hm, Memory.wf_writeBytes 31 _ 0 bs hf (by omega)⟩
  | message t o n c bs h => exact ⟨Memory.wf_writeBytes 27 _ 0 bs hm (by omega), hf⟩
  | messageCrcOk t o n c bs h => exact ⟨Memory.wf_writeBytes 27 _ 0 bs hm (by omega), hf⟩
  | field n bs h => exact ⟨Memory.wf_writeBytes 27 _ _ bs hm h, hf⟩
  | read v p => exact ⟨hm, hf⟩

/-- However a command ends, STATUS and RESULT agree as R29 asks; the arrays are what it has stored. -/
theorem commandEnds_engineInvariant {u t : State} (h : CommandEnds u t) (hm : u.mData.wf 27 = true)
    (hf : u.fb.wf 31 = true) : EngineInvariant t := by
  cases h with
  | raised e he => exact ⟨hm, hf, he.2, fun _ => rfl⟩
  | finished r => exact ⟨hm, hf, by rw [done_status]; decide, fun hne => absurd rfl hne⟩

theorem exec_command_keeps_engineInvariant {c : Command} {s t : State} (hs : EngineInvariant s)
    (h : exec c.toInstr s = .next t) : EngineInvariant t := by
  obtain ⟨hm, hf, -, -⟩ := hs
  obtain ⟨u, hstores, hends⟩ := exec_command_stores h
  obtain ⟨hm', hf'⟩ := commandStores_keeps_wf hstores hm hf
  exact commandEnds_engineInvariant hends hm' hf'

theorem writeReg_keeps_engineInvariant {s : State} (hs : EngineInvariant s) (v : Word) (r : Reg) :
    EngineInvariant (writeReg s v r) := by
  obtain ⟨hm, hf, hcode, hresult⟩ := hs
  obtain ⟨hm', hf'⟩ := writeReg_wf s v r hm hf
  refine ⟨hm', hf', ?_, ?_⟩
  · rw [writeReg_status]; exact hcode
  · rw [writeReg_status, writeReg_result]; exact hresult

theorem exec_keeps_engineInvariant {i : Instr} {s t : State} (hs : EngineInvariant s)
    (h : exec i s = .next t) : EngineInvariant t := by
  obtain ⟨n, -, hread⟩ | ⟨r, v, -, -, hstore⟩ | ⟨c, hissues⟩ | hreserved | hignored := exec_cases i s
  · cases hread.symm.trans h
    exact hs
  · cases hstore.symm.trans h
    exact writeReg_keeps_engineInvariant hs v r
  · rw [exec_issued hissues] at h
    exact exec_command_keeps_engineInvariant hs h
  · cases hreserved.symm.trans h
    obtain ⟨hm, hf, -, -⟩ := hs
    exact commandEnds_engineInvariant (.raised .invalidArgument (by decide)) hm hf
  · cases hignored.symm.trans h
    exact hs

/-- Settles O9: a step is idle or an operation, and the list of host words is no part of the invariant. -/
theorem stepKeepsEngineInvariant : Obligations.StepKeepsEngineInvariant := by
  intro s t hs h
  cases hops : s.hostOps with
  | nil =>
    cases (step_of_hostOps_nil s hops).symm.trans h
    exact hs
  | cons w rest =>
    rw [step_of_hostOps_cons s w rest hops] at h
    exact exec_keeps_engineInvariant (s := { s with hostOps := rest }) hs h

theorem resetWith_engineInvariant (cfg : Config) (u : PowerOn) (hm : u.mData.wf 27 = true)
    (hf : u.fb.wf 31 = true) : EngineInvariant (State.resetWith cfg u) :=
  ⟨hm, hf, by simp [engineStatusCodes], fun _ => rfl⟩

/-- Settles O10: reset leaves STATUS and RESULT 0 and the arrays as they happen to be. -/
theorem resetMeetsEngineInvariant : Obligations.ResetMeetsEngineInvariant :=
  ⟨resetWith_engineInvariant, resetWith_engineInvariant _ _ (Memory.wf_nil 27) (Memory.wf_nil 31)⟩

end Sys2Proof.Machine
end

section
/-! What an operation leaves unchanged: the write set of each command, and the registers of the host alone
(10_state.md R23, R24, R42). -/

namespace Sys2Proof.Machine

/-! ### The write set of each command -/

/-- R42, ENCODE: an Ok answer writes FB below the frame's length, and LEN. -/
theorem execEncode_writes {s t : State} (h : execEncode s = .next t) (hok : t.status = 0x00) :
    t = { s with status := 0x00, result := t.result, fb := t.fb, len := t.len } ∧
      ∀ a, 4 + s.mDataLen.toNat ≤ a → t.fb.readByte a = s.fb.readByte a := by
  obtain ⟨e, he, rfl⟩ | ⟨-, rfl⟩ := execEncode_cases h
  · exact absurd hok (raise_not_ok he s)
  · refine ⟨rfl, fun a ha => Memory.readByte_writeBytes_outside _ _ _ a (.inr ?_)⟩
    simp only [List.length_append, encodeBody_length, List.length_singleton]
    omega

/-- A decoded message changes M_DATA below the frame's `data_len` only (R136). -/
theorem readByte_withDecodedMessage_outside (s : State) (a : Nat) (ha : (s.fb.readByte 2).toNat ≤ a) :
    (withDecodedMessage s).mData.readByte a = s.mData.readByte a :=
  Memory.readByte_writeBytes_outside _ _ _ a (.inr (by rw [Memory.readBytes_length]; omega))

/-- R42, DECODE: an Ok answer writes the message registers. -/
theorem decodeFrame_false_writes {s t : State} (h : decodeFrame false s = .next t) (hok : t.status = 0x00) :
    t = { s with
      status := 0x00, result := t.result, mTypeId := t.mTypeId, mOpcode := t.mOpcode, mDataLen := t.mDataLen
      mData := t.mData, mCrc := t.mCrc } ∧
    ∀ a, (s.fb.readByte 2).toNat ≤ a → t.mData.readByte a = s.mData.readByte a := by
  obtain ⟨e, he, rfl⟩ | ⟨hctx, -⟩ | ⟨-, rfl⟩ := decodeFrame_cases h
  · exact absurd hok (raise_not_ok he s)
  · exact absurd hctx Bool.false_ne_true
  · exact ⟨rfl, readByte_withDecodedMessage_outside s⟩

/-- R42, DECODE.C: an Ok answer writes the message registers and sets LAST_CRC_OK. -/
theorem decodeFrame_true_writes {s t : State} (h : decodeFrame true s = .next t) (hok : t.status = 0x00) :
    t = { s with
      status := 0x00, result := t.result, mTypeId := t.mTypeId, mOpcode := t.mOpcode, mDataLen := t.mDataLen
      mData := t.mData, mCrc := t.mCrc, lastCrcOk := true } ∧
    ∀ a, (s.fb.readByte 2).toNat ≤ a → t.mData.readByte a = s.mData.readByte a := by
  obtain ⟨e, he, rfl⟩ | ⟨-, rfl⟩ | ⟨-, rfl⟩ := decodeFrame_cases h
  · exact absurd hok (raise_not_ok he s)
  · exact absurd hok (raise_not_ok (by decide) _)
  · exact ⟨rfl, readByte_withDecodedMessage_outside s⟩

/-- R42, the PUTs: an Ok answer writes `k` bytes of M_DATA from M_DATA_LEN, and M_DATA_LEN. -/
theorem putBytes_writes {k : Nat} {s t : State} (h : putBytes k s = .next t) (hok : t.status = 0x00) :
    t = { s with status := 0x00, result := t.result, mData := t.mData, mDataLen := t.mDataLen } ∧
      ∀ a, a < s.mDataLen.toNat ∨ s.mDataLen.toNat + k ≤ a → t.mData.readByte a = s.mData.readByte a := by
  obtain rfl | ⟨-, rfl⟩ := putBytes_cases h
  · exact absurd hok (raise_not_ok (by decide) s)
  · exact ⟨rfl, fun a ha => Memory.readByte_writeBytes_outside _ _ _ a (by rwa [leBytes_length])⟩

/-- R42, the GETs: an Ok answer writes VAL and RPOS. -/
theorem getBytes_writes {k : Nat} {s t : State} (h : getBytes k s = .next t) (hok : t.status = 0x00) :
    t = { s with status := 0x00, result := t.result, val := t.val, rpos := t.rpos } := by
  obtain rfl | rfl := getBytes_cases h
  · exact absurd hok (raise_not_ok (by decide) s)
  · rfl

theorem execCrc8_writes {s t : State} (h : execCrc8 s = .next t) :
    t = { s with status := t.status, result := t.result } := by
  obtain rfl | rfl := execCrc8_cases h
  · rfl
  · rfl

/-- Settles O47: the write set of each shared operation. -/
theorem commandWriteSets : Obligations.CommandWriteSets := fun s _ =>
  ⟨execCrc8_writes, execEncode_writes, decodeFrame_false_writes, decodeFrame_true_writes,
    fun w h => putBytes_writes ((exec_put_shared w s).symm.trans h),
    fun w h => getBytes_writes ((exec_get_shared w s).symm.trans h)⟩

/-! ### The registers only the host writes -/

/-- The registers no command writes (R23, R24), and the model's own fields, are in `t` as in `s`. -/
structure SameHostRegisters (s t : State) : Prop where
  cfg : t.cfg = s.cfg
  hostOps : t.hostOps = s.hostOps
  rdLog : t.rdLog = s.rdLog
  mSrcAddr : t.mSrcAddr = s.mSrcAddr
  cap : t.cap = s.cap
  rangeOff : t.rangeOff = s.rangeOff
  rangeLen : t.rangeLen = s.rangeLen

theorem sameHostRegisters_refl (s : State) : SameHostRegisters s s := ⟨rfl, rfl, rfl, rfl, rfl, rfl, rfl⟩

theorem commandStores_sameHostRegisters {s u : State} (h : CommandStores s u) : SameHostRegisters s u := by
  cases h with
  | _ => exact ⟨rfl, rfl, rfl, rfl, rfl, rfl, rfl⟩

theorem commandEnds_sameHostRegisters {s u t : State} (h : CommandEnds u t) (hsu : SameHostRegisters s u) :
    SameHostRegisters s t := by
  obtain ⟨hcfg, hops, hlog, hsrc, hcap, hoff, hlen⟩ := hsu
  cases h with
  | _ => exact ⟨hcfg, hops, hlog, hsrc, hcap, hoff, hlen⟩

theorem exec_command_sameHostRegisters {c : Command} {s t : State} (h : exec c.toInstr s = .next t) :
    SameHostRegisters s t := by
  obtain ⟨u, hstores, hends⟩ := exec_command_stores h
  exact commandEnds_sameHostRegisters hends (commandStores_sameHostRegisters hstores)

theorem writeReg_mSrcAddr (s : State) (v : Word) (r : Reg) :
    (writeReg s v r).mSrcAddr = s.mSrcAddr ∨ r = .mSrcAddr := by
  cases r with
  | mSrcAddr => exact .inr rfl
  | _ => exact .inl rfl

theorem writeReg_cap (s : State) (v : Word) (r : Reg) : (writeReg s v r).cap = s.cap ∨ r = .cap := by
  cases r with
  | cap => exact .inr rfl
  | _ => exact .inl rfl

theorem writeReg_rangeOff (s : State) (v : Word) (r : Reg) :
    (writeReg s v r).rangeOff = s.rangeOff ∨ r = .rangeOff := by
  cases r with
  | rangeOff => exact .inr rfl
  | _ => exact .inl rfl

theorem writeReg_rangeLen (s : State) (v : Word) (r : Reg) :
    (writeReg s v r).rangeLen = s.rangeLen ∨ r = .rangeLen := by
  cases r with
  | rangeLen => exact .inr rfl
  | _ => exact .inl rfl

/-- Everything an operation can do to these registers: nothing, one returned value, or the host's own write. -/
theorem exec_hostRegisters {i : Instr} {s t : State} (h : exec i s = .next t) :
    SameHostRegisters s t ∨ (∃ n, i = .rd n ∧ t = { s with rdLog := s.rdLog ++ [readNumber s n] }) ∨
    ∃ r v, i = .wr (regNumber r) v ∧ t = writeReg s v r := by
  obtain ⟨n, hi, hread⟩ | ⟨r, v, -, hi, hstore⟩ | ⟨c, hissues⟩ | hreserved | hignored := exec_cases i s
  · cases hread.symm.trans h
    exact .inr (.inl ⟨n, hi, rfl⟩)
  · cases hstore.symm.trans h
    exact .inr (.inr ⟨r, v, hi, rfl⟩)
  · rw [exec_issued hissues] at h
    exact .inl (exec_command_sameHostRegisters h)
  · cases hreserved.symm.trans h
    exact .inl (commandEnds_sameHostRegisters (.raised .invalidArgument (by decide)) (sameHostRegisters_refl s))
  · cases hignored.symm.trans h
    exact .inl (sameHostRegisters_refl s)

/-- Settles O48: a stored write changes one of the four registers only where it names that register's number. -/
theorem registersOnlyTheHostWrites : Obligations.RegistersOnlyTheHostWrites := by
  intro i s t h
  obtain ⟨hcfg, hops, hlog, hsrc, hcap, hoff, hlen⟩ | ⟨n, rfl, rfl⟩ | ⟨r, v, rfl, rfl⟩ := exec_hostRegisters h
  · exact ⟨hcfg, hops, .inl hsrc, .inl hcap, .inl hoff, .inl hlen, .inl hlog⟩
  · exact ⟨rfl, rfl, .inl rfl, .inl rfl, .inl rfl, .inl rfl, .inr ⟨n, rfl, rfl⟩⟩
  · exact ⟨writeReg_cfg s v r, writeReg_hostOps s v r,
      (writeReg_mSrcAddr s v r).imp_right fun hr => ⟨v, by rw [hr]; rfl⟩,
      (writeReg_cap s v r).imp_right fun hr => ⟨v, by rw [hr]; rfl⟩,
      (writeReg_rangeOff s v r).imp_right fun hr => ⟨v, by rw [hr]; rfl⟩,
      (writeReg_rangeLen s v r).imp_right fun hr => ⟨v, by rw [hr]; rfl⟩,
      .inl (writeReg_rdLog s v r)⟩

end Sys2Proof.Machine
end

section
/-! The idle engine, the state after reset with the commands straight after it (10_state.md R21, R40, R41,
70_reset_and_hazards.md R244), and the error counter (R30). -/

namespace Sys2Proof.Machine

/-- Settles O7. -/
theorem idleEngineChangesNothing : Obligations.IdleEngineChangesNothing := step_of_hostOps_nil

/-- Settles O12: the fields of `State.resetWith`, one by one. -/
theorem resetLeaves : Obligations.ResetLeaves := fun cfg u =>
  ⟨resetWith_status cfg u, resetWith_result cfg u, resetWith_len cfg u, resetWith_cap cfg u,
    resetWith_rangeOff cfg u, resetWith_rangeLen cfg u, resetWith_rpos cfg u, resetWith_crcErrorCount cfg u,
    resetWith_lastCrcOk cfg u, resetWith_val cfg u, resetWith_mTypeId cfg u, resetWith_mOpcode cfg u,
    resetWith_mDataLen cfg u, resetWith_mCrc cfg u, resetWith_mSrcAddr cfg u, resetWith_mData cfg u,
    resetWith_fb cfg u⟩

/-! ### The checks that decide the commands straight after reset -/

theorem execEncode_payloadTooLarge (s : State) (hcap : s.cap.toNat ≤ 31) (hlen : 27 < s.mDataLen.toNat) :
    execEncode s = .next (raise .payloadTooLarge s) := by
  rw [execEncode_eq, if_neg (by omega), if_pos hlen]

theorem execEncode_bufferTooSmall (s : State) (hcap : s.cap.toNat ≤ 31) (hlen : s.mDataLen.toNat ≤ 27)
    (hroom : s.cap.toNat < 4 + s.mDataLen.toNat) : execEncode s = .next (raise .bufferTooSmall s) := by
  rw [execEncode_eq, if_neg (by omega), if_neg (by omega), if_pos hroom]

theorem decodeFrame_frameTooShort (ctx : Bool) (s : State) (hlen : s.len.toNat < 4) :
    decodeFrame ctx s = .next (raise .frameTooShort s) := by
  rw [decodeFrame_eq, if_neg (by omega), if_pos hlen]

theorem done_toNat (b : Byte) (s : State) : done b.toNat s = { s with status := 0x00, result := b } := by
  simp [done]

theorem execCrc8_inside (s : State) (h : s.rangeOff.toNat + s.rangeLen.toNat ≤ 31) :
    execCrc8 s = .next
      { s with status := 0x00, result := crc8 s.cfg (s.fb.readBytes s.rangeOff.toNat s.rangeLen.toNat) } := by
  rw [execCrc8_eq, if_neg (by omega), done_toNat]

/-- Settles O13: after reset CAP, LEN and the range are 0, so each command meets its first check that a 0 fails. -/
theorem commandsStraightAfterReset : Obligations.CommandsStraightAfterReset := by
  intro cfg u s
  have hcap : s.cap.toNat = 0 := rfl
  have hlen : s.len.toNat = 0 := rfl
  have hrange : s.rangeOff.toNat + s.rangeLen.toNat = 0 := rfl
  have hdata : s.mDataLen = u.mDataLen := rfl
  refine ⟨fun hlarge => ?_, fun hsmall => ?_, ?_, ?_, ?_⟩
  · exact execEncode_payloadTooLarge s (by omega) (by rwa [hdata])
  · exact execEncode_bufferTooSmall s (by omega) (by rwa [hdata]) (by omega)
  · exact decodeFrame_frameTooShort false s (by omega)
  · exact decodeFrame_frameTooShort true s (by omega)
  · exact execCrc8_inside s (by omega)

/-! ### The error counter -/

theorem inc32_wrap_toNat (v : Word) : (inc32 .wrap v).toNat = (v.toNat + 1) % 2 ^ 32 := by
  simp [inc32, BitVec.toNat_add]

theorem inc32_saturate_toNat (v : Word) : (inc32 .saturate v).toNat = min (v.toNat + 1) 0xFFFFFFFF := by
  unfold inc32
  by_cases hmax : v = 0xFFFFFFFF
  · subst hmax
    decide
  · have hlt : v.toNat < 0xFFFFFFFF := by bv_omega
    simp only [hmax, if_false]
    bv_omega

/-- Settles O45. -/
theorem counterIncrement : Obligations.CounterIncrement := fun v => ⟨inc32_wrap_toNat v, inc32_saturate_toNat v⟩

end Sys2Proof.Machine
end

section
/-! Programs of host words: a step runs the host's next word, and the words after it are no part of what it does
(20_memory.md R61, 43_host_port.md R173, R174). -/

namespace Sys2Proof.Machine

/-- Settles O6. -/
theorem stepRunsTheNextHostOperation : Obligations.StepRunsTheNextHostOperation := step_of_hostOps_cons

/-! ### The words not yet issued influence no operation -/

theorem readReg_withHostOps (s : State) (ops : List HostWord) (r : Reg) :
    readReg { s with hostOps := ops } r = readReg s r := by
  cases r with
  | _ => rfl

theorem readNumber_withHostOps (s : State) (ops : List HostWord) (n : Byte) :
    readNumber { s with hostOps := ops } n = readNumber s n := by
  simp only [readNumber, readReg_withHostOps]

theorem writeReg_withHostOps (s : State) (ops : List HostWord) (v : Word) (r : Reg) :
    writeReg { s with hostOps := ops } v r = { writeReg s v r with hostOps := ops } := by
  cases r with
  | _ => rfl

section
variable {s t : State} (ops : List HostWord)

/-- An operation answers alike for every list `ops` when the function of the state it is equal to does. -/
theorem withHostOps_of_eq {op : State → Answer} {next : State → State} (heq : ∀ u, op u = .next (next u))
    (hnext : next { s with hostOps := ops } = { next s with hostOps := ops }) (h : op s = .next t) :
    op { s with hostOps := ops } = .next { t with hostOps := ops } := by
  cases (heq s).symm.trans h
  rw [heq, hnext]

theorem execCrc8_withHostOps (h : execCrc8 s = .next t) :
    execCrc8 { s with hostOps := ops } = .next { t with hostOps := ops } :=
  withHostOps_of_eq ops execCrc8_eq (by dsimp only; split_ifs <;> rfl) h

theorem execEncode_withHostOps (h : execEncode s = .next t) :
    execEncode { s with hostOps := ops } = .next { t with hostOps := ops } :=
  withHostOps_of_eq ops execEncode_eq (by dsimp only; split_ifs <;> rfl) h

theorem decodeFrame_withHostOps {ctx : Bool} (h : decodeFrame ctx s = .next t) :
    decodeFrame ctx { s with hostOps := ops } = .next { t with hostOps := ops } :=
  withHostOps_of_eq ops (decodeFrame_eq ctx) (by dsimp only; split_ifs <;> rfl) h

theorem putBytes_withHostOps {k : Nat} (h : putBytes k s = .next t) :
    putBytes k { s with hostOps := ops } = .next { t with hostOps := ops } :=
  withHostOps_of_eq ops (putBytes_eq k) (by dsimp only; split_ifs <;> rfl) h

theorem getBytes_withHostOps {k : Nat} (h : getBytes k s = .next t) :
    getBytes k { s with hostOps := ops } = .next { t with hostOps := ops } :=
  withHostOps_of_eq ops (getBytes_eq k) (by dsimp only; split_ifs <;> rfl) h

theorem exec_command_withHostOps {c : Command} (h : exec c.toInstr s = .next t) :
    exec c.toInstr { s with hostOps := ops } = .next { t with hostOps := ops } := by
  cases c with
  | crc8 => exact execCrc8_withHostOps ops h
  | encode => exact execEncode_withHostOps ops h
  | decode => exact decodeFrame_withHostOps (ctx := false) ops h
  | decodeC => exact decodeFrame_withHostOps (ctx := true) ops h
  | put8 => exact putBytes_withHostOps (k := 1) ops h
  | put16 => exact putBytes_withHostOps (k := 2) ops h
  | put32 => exact putBytes_withHostOps (k := 4) ops h
  | get8 => exact getBytes_withHostOps (k := 1) ops h
  | get16 => exact getBytes_withHostOps (k := 2) ops h
  | get32 => exact getBytes_withHostOps (k := 4) ops h

/-- The register number alone decides whether a write stores, starts a command or is ignored (R171 to R173). -/
theorem execWr_withHostOps {n : Byte} {v : Word} (h : execWr n v s = .next t) :
    execWr n v { s with hostOps := ops } = .next { t with hostOps := ops } := by
  cases hn : regOfNumber n with
  | none =>
    rw [execWr_reserved n v _ hn] at h ⊢
    cases h
    rfl
  | some r =>
    obtain rfl := regNumber_of_regOfNumber n r hn
    cases haccess : regAccess r with
    | rw =>
      rw [execWr_rw r v _ haccess] at h ⊢
      cases h
      rw [writeReg_withHostOps]
    | ro =>
      rw [execWr_ro r v _ haccess] at h ⊢
      cases h
      rfl
    | wt =>
      obtain rfl := (regAccess_wt_iff r).mp haccess
      rw [regNumber, execWr_cmd] at h ⊢
      cases hc : Command.ofByte (commandByte v) with
      | some c =>
        rw [runCommandByte_listed _ c _ hc, runCommand_eq_exec] at h ⊢
        exact exec_command_withHostOps ops h
      | none =>
        rw [runCommandByte_reserved _ _ hc] at h ⊢
        cases h
        rfl

/-- Every operation does the same whatever the host has still to issue, and leaves that as it is. -/
theorem exec_withHostOps {i : Instr} (h : exec i s = .next t) :
    exec i { s with hostOps := ops } = .next { t with hostOps := ops } := by
  cases i with
  | rd n =>
    rw [exec_rd, execRd_eq] at h ⊢
    cases h
    rw [readNumber_withHostOps]
  | wr n v => exact execWr_withHostOps ops h
  | crc8 => exact exec_command_withHostOps (c := .crc8) ops h
  | encode => exact exec_command_withHostOps (c := .encode) ops h
  | decode => exact exec_command_withHostOps (c := .decode) ops h
  | decodeC => exact exec_command_withHostOps (c := .decodeC) ops h
  | put8 => exact exec_command_withHostOps (c := .put8) ops h
  | put16 => exact exec_command_withHostOps (c := .put16) ops h
  | put32 => exact exec_command_withHostOps (c := .put32) ops h
  | get8 => exact exec_command_withHostOps (c := .get8) ops h
  | get16 => exact exec_command_withHostOps (c := .get16) ops h
  | get32 => exact exec_command_withHostOps (c := .get32) ops h

end

theorem exec_hostOps {i : Instr} {s t : State} (h : exec i s = .next t) : t.hostOps = s.hostOps := by
  obtain ⟨-, hops, -⟩ := registersOnlyTheHostWrites i s t h
  exact hops

/-! ### A program, word by word -/

/-- R83: the host word of a canonical operation stands for it. -/
theorem decodeInstr_encodeInstr (i : Instr) (h : i.WellFormed) : decodeInstr (encodeInstr i) = i := by
  cases i with
  | rd n => exact Laws.RoundTrip.rd n h
  | wr n v => exact Laws.RoundTrip.wr n v h
  | crc8 => exact Laws.RoundTrip.crc8 h
  | encode => exact Laws.RoundTrip.encode h
  | decode => exact Laws.RoundTrip.decode h
  | decodeC => exact Laws.RoundTrip.decodeC h
  | put8 => exact Laws.RoundTrip.put8 h
  | put16 => exact Laws.RoundTrip.put16 h
  | put32 => exact Laws.RoundTrip.put32 h
  | get8 => exact Laws.RoundTrip.get8 h
  | get16 => exact Laws.RoundTrip.get16 h
  | get32 => exact Laws.RoundTrip.get32 h

theorem run_succ_of_step {s t : State} (k : Nat) (h : step s = .next t) :
    Sys2Proof.core.run (k + 1) s = Sys2Proof.core.run k t := by
  have hcore : Sys2Proof.core.step s = .next t := h
  simp only [Host.Core.run, hcore]

/-- The step that issues the first word of an assembled program is the program's first operation. -/
theorem step_assemble_cons {i : Instr} (hi : i.WellFormed) (rest : List Instr) {s t : State}
    (h : exec i { s with hostOps := [] } = .next t) :
    step { s with hostOps := assemble (i :: rest) } = .next { t with hostOps := assemble rest } := by
  rw [step_of_hostOps_cons _ (encodeInstr i) (assemble rest) rfl, decodeInstr_encodeInstr i hi]
  exact exec_withHostOps (s := { s with hostOps := [] }) (assemble rest) h

/-- Settles O11, by induction on the program: each step is its first operation, run with the other words in place of
the empty list. -/
theorem programRunsInOrder : Obligations.ProgramRunsInOrder := by
  intro prog
  induction prog with
  | nil => intro s _; rfl
  | cons i rest ih =>
    intro s hwf
    obtain ⟨hi, hrest⟩ := List.forall_mem_cons.mp hwf
    obtain ⟨t, ht⟩ := exec_answers_next i { s with hostOps := [] }
    have hempty : t.hostOps = [] := exec_hostOps ht
    have hdone : { t with hostOps := [] } = t := by rw [← hempty]
    rw [List.length_cons, run_succ_of_step rest.length (step_assemble_cons hi rest ht), ih t hrest, hdone,
      runOps_cons_next i rest _ t ht]

end Sys2Proof.Machine
end

section
/-! The arrays and registers as the host sees them: a write reads back (20_memory.md R55, R61), and an array in
canonical form is determined by what it reads (log entry 2). -/

namespace Sys2Proof.Machine

/-! ### Host writes -/

theorem readNumber_writeReg_ne (s : State) (v : Word) (r : Reg) (m : Byte) (h : m ≠ regNumber r) :
    readNumber (writeReg s v r) m = readNumber s m := by
  unfold readNumber
  cases hm : regOfNumber m with
  | none => rfl
  | some r' =>
    have hne : r' ≠ r := by
      rintro rfl
      exact h (regNumber_of_regOfNumber m r' hm).symm
    exact readReg_writeReg_ne s v r r' hne

/-- Settles O16, by what the number names: an RW register is stored to, and any other write but one to CMD does
nothing. -/
theorem writtenRegisterReadsBack : Obligations.WrittenRegisterReadsBack := by
  intro s t n v hcmd h
  rw [exec_wr] at h
  cases hn : regOfNumber n with
  | none =>
    cases (execWr_reserved n v s hn).symm.trans h
    exact ⟨fun r hr => (nomatch hr), fun _ _ _ => rfl, fun _ _ => rfl⟩
  | some r =>
    obtain rfl := regNumber_of_regOfNumber n r hn
    cases haccess : regAccess r with
    | rw =>
      cases (execWr_rw r v s haccess).symm.trans h
      refine ⟨?_, ?_, readNumber_writeReg_ne s v r⟩
      · rintro _ ⟨⟩ -
        rw [readNumber_regNumber, readReg_writeReg_same s v r haccess]
      · rintro _ ⟨⟩ hnot
        exact absurd haccess hnot
    | ro =>
      cases (execWr_ro r v s haccess).symm.trans h
      refine ⟨?_, fun _ _ _ => rfl, fun _ _ => rfl⟩
      rintro _ ⟨⟩ hrw
      exact (nomatch haccess.symm.trans hrw)
    | wt =>
      obtain rfl := (regAccess_wt_iff r).mp haccess
      exact absurd rfl hcmd

/-! ### The canonical form of an array -/

theorem Memory.readByte_cons_same (a : Nat) (v : Byte) (rest : Memory) :
    Memory.readByte ((a, v) :: rest) a = v := if_pos rfl

theorem Memory.readByte_cons_ne (a x : Nat) (v : Byte) (rest : Memory) (h : x ≠ a) :
    Memory.readByte ((a, v) :: rest) x = Memory.readByte rest x := if_neg h.symm

/-- Offsets rise, so an offset below the first one is not listed. -/
theorem Memory.readByte_below (size low a : Nat) (m : Memory) (hm : Memory.wfFrom size low m = true)
    (ha : a < low) : m.readByte a = Memory.unlisted := by
  induction m generalizing low with
  | nil => rfl
  | cons c rest ih =>
    obtain ⟨b, v⟩ := c
    obtain ⟨⟨hb, -, -⟩, hrest⟩ := (Memory.wfFrom_cons size low b v rest).mp hm
    rw [Memory.readByte_cons_ne b a v rest (by omega)]
    exact ih (b + 1) hrest (by omega)

/-- No canonical array reads like one whose first cell has a lower offset: that cell holds a listed value. -/
theorem Memory.readByte_ne_of_first_below (size low a : Nat) (v : Byte) (rest m : Memory)
    (hv : v ≠ Memory.unlisted) (hm : Memory.wfFrom size low m = true) (ha : a < low) :
    Memory.readByte ((a, v) :: rest) a ≠ m.readByte a := by
  rw [Memory.readByte_cons_same, Memory.readByte_below size low a m hm ha]
  exact hv

/-- Arrays that read alike and begin with a cell at one offset have the same value there and read alike behind it. -/
theorem Memory.tail_reads_alike (size a : Nat) (v w : Byte) (m m' : Memory)
    (hm : Memory.wfFrom size (a + 1) m = true) (hm' : Memory.wfFrom size (a + 1) m' = true)
    (h : ∀ x, Memory.readByte ((a, v) :: m) x = Memory.readByte ((a, w) :: m') x) :
    v = w ∧ ∀ x, m.readByte x = m'.readByte x := by
  refine ⟨by simpa only [Memory.readByte_cons_same] using h a, fun x => ?_⟩
  by_cases hx : x = a
  · subst hx
    rw [Memory.readByte_below size _ x m hm (by omega), Memory.readByte_below size _ x m' hm' (by omega)]
  · simpa only [Memory.readByte_cons_ne _ x _ _ hx] using h x

theorem Memory.eq_of_reads_alike (size low : Nat) (m m' : Memory) (hm : Memory.wfFrom size low m = true)
    (hm' : Memory.wfFrom size low m' = true) (h : ∀ x, m.readByte x = m'.readByte x) : m = m' := by
  induction m generalizing low m' with
  | nil =>
    cases m' with
    | nil => rfl
    | cons c' rest' =>
      obtain ⟨b, w⟩ := c'
      obtain ⟨⟨-, -, hw⟩, -⟩ := (Memory.wfFrom_cons size low b w rest').mp hm'
      exact absurd (h b).symm (Memory.readByte_ne_of_first_below size (b + 1) b w rest' [] hw rfl (by omega))
  | cons c rest ih =>
    obtain ⟨a, v⟩ := c
    obtain ⟨⟨-, hasize, hv⟩, hrest⟩ := (Memory.wfFrom_cons size low a v rest).mp hm
    cases m' with
    | nil => exact absurd (h a) (Memory.readByte_ne_of_first_below size (a + 1) a v rest [] hv rfl (by omega))
    | cons c' rest' =>
      obtain ⟨b, w⟩ := c'
      obtain ⟨⟨-, hbsize, hw⟩, hrest'⟩ := (Memory.wfFrom_cons size low b w rest').mp hm'
      obtain hab | rfl | hba := Nat.lt_trichotomy a b
      · have hlater : Memory.wfFrom size b ((b, w) :: rest') = true :=
          (Memory.wfFrom_cons size b b w rest').mpr ⟨⟨le_refl b, hbsize, hw⟩, hrest'⟩
        exact absurd (h a) (Memory.readByte_ne_of_first_below size b a v rest _ hv hlater hab)
      · obtain ⟨rfl, htail⟩ := Memory.tail_reads_alike size a v w rest rest' hrest hrest' h
        rw [ih (a + 1) rest' hrest hrest' htail]
      · have hlater : Memory.wfFrom size a ((a, v) :: rest) = true :=
          (Memory.wfFrom_cons size a a v rest).mpr ⟨⟨le_refl a, hasize, hv⟩, hrest⟩
        exact absurd (h b).symm (Memory.readByte_ne_of_first_below size a b w rest' _ hw hlater hba)

/-- Settles O49: canonical from offset 0 on. -/
theorem canonicalArraysThatReadAlikeAreEqual : Obligations.CanonicalArraysThatReadAlikeAreEqual :=
  fun size => Memory.eq_of_reads_alike size 0

end Sys2Proof.Machine
end

section
/-! Which bytes of the arrays a command touches: ENCODE writes below CAP and inside the frame (20_memory.md R60), a
decode reads below LEN (R59), a PUT writes the bytes of VAL (42_payload_marshal.md R151). -/

namespace Sys2Proof.Machine

/-! ### ENCODE -/

theorem execEncode_error_fb {s t : State} (h : execEncode s = .next t) (herr : t.status ≠ 0x00) : t.fb = s.fb := by
  obtain ⟨e, -, rfl⟩ | ⟨-, rfl⟩ := execEncode_cases h
  · rfl
  · exact absurd rfl herr

/-- Every check of R125 that fails raises an error, so an Ok answer means that the frame fits. -/
theorem execEncode_ok_fits {s t : State} (h : execEncode s = .next t) (hok : t.status = 0x00) :
    4 + s.mDataLen.toNat ≤ s.cap.toNat := by
  rw [execEncode_eq, Host.Outcome.next.injEq] at h
  subst h
  split_ifs at hok with hcap hlen hroom
  · exact absurd hok (raise_not_ok (by decide) s)
  · exact absurd hok (raise_not_ok (by decide) s)
  · exact absurd hok (raise_not_ok (by decide) s)
  · omega

/-- Settles O25: an error writes nothing, and an Ok frame ends below CAP. -/
theorem encodeStaysInsideCapacity : Obligations.EncodeStaysInsideCapacity := by
  intro s t h
  rw [exec_encode] at h
  by_cases hok : t.status = 0x00
  · obtain ⟨-, hpast⟩ := execEncode_writes h hok
    have hfits := execEncode_ok_fits h hok
    exact ⟨fun a ha => hpast a (by omega), hpast, fun herr => absurd hok herr⟩
  · have hsame : ∀ a, t.fb.readByte a = s.fb.readByte a := by
      rw [execEncode_error_fb h hok]
      exact fun _ => rfl
    exact ⟨fun a _ => hsame a, fun a _ => hsame a, fun _ => hsame⟩

/-! ### DECODE and DECODE.C -/

theorem decodeReads_below_len {s : State} {j : Nat} (h : DecodeReads s j) : j < s.len.toNat := by
  obtain ⟨hmin, -, rfl | ⟨hlen, hj⟩⟩ := h
  · omega
  · omega

/-- Each check of R135 is decided by LEN and bytes already known to be read, so both frame buffers pass or fail it
alike. -/
theorem decodeFrame_withFb {ctx : Bool} {s t : State} (fb' : Memory)
    (hreads : ∀ j, DecodeReads s j → fb'.readByte j = s.fb.readByte j) (h : decodeFrame ctx s = .next t) :
    decodeFrame ctx { s with fb := fb' } = .next { t with fb := fb' } := by
  rw [decodeFrame_eq, Host.Outcome.next.injEq] at h
  subst h
  rw [decodeFrame_eq]
  dsimp only
  by_cases hlong : 31 < s.len.toNat
  · rw [if_pos hlong, if_pos hlong]; rfl
  by_cases hshort : s.len.toNat < 4
  · simp only [if_neg hlong, if_pos hshort]; rfl
  have hlenByte : fb'.readByte 2 = s.fb.readByte 2 := hreads 2 ⟨by omega, by omega, .inl rfl⟩
  rw [hlenByte]
  by_cases hlen : s.len.toNat < 4 + (s.fb.readByte 2).toNat
  · simp only [if_neg hlong, if_neg hshort, if_pos hlen]; rfl
  have hframe : ∀ j, j < 4 + (s.fb.readByte 2).toNat → fb'.readByte j = s.fb.readByte j :=
    fun j hj => hreads j ⟨by omega, by omega, .inr ⟨by omega, hj⟩⟩
  have hcovered : fb'.readBytes 0 (3 + (s.fb.readByte 2).toNat) = s.fb.readBytes 0 (3 + (s.fb.readByte 2).toNat) :=
    Memory.readBytes_congr _ _ _ _ fun i hi => hframe _ (by omega)
  have hpayload : fb'.readBytes 3 (s.fb.readByte 2).toNat = s.fb.readBytes 3 (s.fb.readByte 2).toNat :=
    Memory.readBytes_congr _ _ _ _ fun i hi => hframe _ (by omega)
  rw [hcovered, hpayload, hframe 0 (by omega), hframe 1 (by omega), hframe (3 + _) (by omega)]
  split_ifs <;> rfl

/-- Settles O29. -/
theorem decodeReadsOnlyTheFrame : Obligations.DecodeReadsOnlyTheFrame := by
  refine ⟨fun s j => decodeReads_below_len, ?_⟩
  rintro s t fb' i (rfl | rfl) hreads h
  · exact decodeFrame_withFb (ctx := false) fb' hreads h
  · exact decodeFrame_withFb (ctx := true) fb' hreads h

/-! ### The PUTs -/

/-- The little-endian bytes of a value, offset by offset (20_memory.md R54). -/
theorem Memory.readByte_writeBytes_leBytes (m : Memory) (o k : Nat) (v : Word) (a : Nat) :
    (m.writeBytes o (leBytes v k)).readByte a =
      if o ≤ a ∧ a < o + k then v.extractLsb' (8 * (a - o)) 8 else m.readByte a := by
  simp only [Memory.readByte_writeBytes, leBytes_length, getElem_leBytes, byteOf, dite_eq_ite]

/-- Settles O40: a PUT that does not refuse stores the bytes of VAL and ends with `done`. -/
theorem putStoresOnlyItsBytes : Obligations.PutStoresOnlyItsBytes := by
  intro w s t h hok
  rw [exec_put_shared] at h
  obtain rfl | ⟨-, rfl⟩ := putBytes_cases h
  · exact absurd hok (raise_not_ok (by decide) s)
  · exact ⟨Memory.readByte_writeBytes_leBytes s.mData s.mDataLen.toNat w.bytes s.val, rfl⟩

end Sys2Proof.Machine
end

section
/-! The host word and its operation (30_encoding.md R78 to R84): which operation a word's fields stand for, said once
for each kind (`decodeInstr_of_…`, `decodeInstr_cases`), and that decoder and encoder agree on canonical spelling. -/

namespace Sys2Proof.Machine

/-! ### The fields of a host word decide its operation (R81, R173) -/

section

variable {w : HostWord}

theorem decodeInstr_of_read (hwe : hostWe w = false) : decodeInstr w = .rd (hostReg w) := by
  simp [decodeInstr, hwe]

theorem decodeInstr_of_write (hwe : hostWe w = true) (hreg : hostReg w ≠ 0x00) :
    decodeInstr w = .wr (hostReg w) (hostData w) := by
  rw [decodeInstr, if_pos hwe, if_neg hreg]

theorem decodeInstr_of_command {c : Command} (hwe : hostWe w = true) (hreg : hostReg w = 0x00)
    (hc : Command.ofByte (commandByte (hostData w)) = some c) : decodeInstr w = c.toInstr := by
  simp [decodeInstr, hwe, hreg, hc]

theorem decodeInstr_of_reserved (hwe : hostWe w = true) (hreg : hostReg w = 0x00)
    (hc : Command.ofByte (commandByte (hostData w)) = none) : decodeInstr w = .wr 0x00 (hostData w) := by
  simp [decodeInstr, hwe, hreg, hc]

end

/-- Everything a host word can stand for. -/
theorem decodeInstr_cases (w : HostWord) :
    decodeInstr w = .rd (hostReg w) ∨
    (hostReg w ≠ 0x00 ∧ decodeInstr w = .wr (hostReg w) (hostData w)) ∨
    (∃ c : Command, decodeInstr w = c.toInstr) ∨
    (Command.ofByte (commandByte (hostData w)) = none ∧ decodeInstr w = .wr 0x00 (hostData w)) := by
  cases hwe : hostWe w with
  | false => exact .inl (decodeInstr_of_read hwe)
  | true =>
    by_cases hreg : hostReg w = 0x00
    · cases hc : Command.ofByte (commandByte (hostData w)) with
      | some c => exact .inr (.inr (.inl ⟨c, decodeInstr_of_command hwe hreg hc⟩))
      | none => exact .inr (.inr (.inr ⟨rfl, decodeInstr_of_reserved hwe hreg hc⟩))
    · exact .inr (.inl ⟨hreg, decodeInstr_of_write hwe hreg⟩)

/-! ### Canonical spelling (R83, log entry 8) -/

@[simp] theorem wellFormed_toInstr (c : Command) : c.toInstr.WellFormed := by
  cases c <;> rfl

/-- The check on a write is the command map's: only CMD with a listed byte is spelled otherwise. -/
theorem wellFormed_wr_iff (n : Byte) (v : Word) :
    (Instr.wr n v).WellFormed ↔ (n = 0x00 → Command.ofByte (commandByte v) = none) := by
  rw [ofByte_eq_none_iff]
  simp [Instr.WellFormed, Instr.wf, commandByte, imp_iff_not_or]

theorem wellFormed_decodeInstr (w : HostWord) : (decodeInstr w).WellFormed := by
  obtain hread | ⟨hreg, hwrite⟩ | ⟨c, hcommand⟩ | ⟨hc, hreserved⟩ := decodeInstr_cases w
  · rw [hread]; rfl
  · rw [hwrite, wellFormed_wr_iff]
    exact fun h => absurd h hreg
  · rw [hcommand]; exact wellFormed_toInstr c
  · rw [hreserved, wellFormed_wr_iff]
    exact fun _ => hc

/-- Settles O1, constructor by constructor through `Laws.RoundTrip`. -/
theorem decodeEncodeAgree : Obligations.DecodeEncodeAgree := decodeInstr_encodeInstr

/-- Settles O2: what a word decodes to is in canonical spelling, so that its own encoding gives it back. -/
theorem everyHostWordDecodes : Obligations.EveryHostWordDecodes := fun w =>
  ⟨wellFormed_decodeInstr w, decodeInstr_encodeInstr _ (wellFormed_decodeInstr w)⟩

/-! ### The command map (R78, R79) -/

/-- The bytes that the map leaves out are the ranges that R79 writes out. -/
theorem ofByte_eq_none_iff_reserved (b : Byte) : Command.ofByte b = none ↔ ReservedCommandByte b := by
  rw [ofByte_eq_none_iff]
  simp only [listedCommandBytes, List.contains_eq_mem, decide_eq_false_iff_not, List.mem_cons,
    List.not_mem_nil, or_false, not_or, ReservedCommandByte]
  constructor
  · intro hunlisted
    bv_omega
  · intro hreserved
    bv_omega

/-- Settles O4: the listed bytes are those of the ten commands. -/
theorem commandMapComplete : Obligations.CommandMapComplete :=
  ⟨ofByte_eq_none_iff_reserved, ofByte_byte .crc8, ofByte_byte .encode, ofByte_byte .decode, ofByte_byte .decodeC,
    ofByte_byte .put8, ofByte_byte .put16, ofByte_byte .put32, ofByte_byte .get8, ofByte_byte .get16,
    ofByte_byte .get32⟩

/-! ### Host words given by their fields, and written out -/

/-- Settles O3: the fields of `hostWord` are its arguments, and each kind of word has its equation. -/
theorem hostWordFields : Obligations.HostWordFields := by
  intro reg v
  refine ⟨?_, fun hreg => ?_, fun c hc => ?_, fun hreserved => ?_⟩
  · simpa using decodeInstr_of_read (hostWe_hostWord false reg v)
  · simpa using decodeInstr_of_write (hostWe_hostWord true reg v) (by simpa using hreg)
  · have hlisted : Command.ofByte (commandByte v) = some c := by rw [hc, ofByte_byte]
    exact decodeInstr_of_command (hostWe_hostWord true 0x00 v) (hostReg_hostWord true 0x00 v) (by simpa using hlisted)
  · have hunlisted : Command.ofByte (commandByte v) = none := (ofByte_eq_none_iff_reserved _).mpr hreserved
    simpa using decodeInstr_of_reserved (hostWe_hostWord true 0x00 v) (hostReg_hostWord true 0x00 v)
      (by simpa using hunlisted)

theorem decodeInstr_of_encodeInstr_eq {w : HostWord} {i : Instr} (hwf : i.WellFormed) (hw : encodeInstr i = w) :
    decodeInstr w = i := by
  rw [← hw, decodeInstr_encodeInstr i hwf]

/-- Settles O5: each word written out is the encoder's own word for its operation. -/
theorem writtenOutWordsDecode : Obligations.WrittenOutWordsDecode :=
  ⟨decodeInstr_of_encodeInstr_eq (by decide) (by decide), decodeInstr_of_encodeInstr_eq (by decide) (by decide),
    decodeInstr_of_encodeInstr_eq rfl (by decide), decodeInstr_of_encodeInstr_eq rfl (by decide),
    decodeInstr_of_encodeInstr_eq rfl (by decide), decodeInstr_of_encodeInstr_eq rfl (by decide),
    decodeInstr_of_encodeInstr_eq rfl (by decide), decodeInstr_of_encodeInstr_eq rfl (by decide)⟩

end Sys2Proof.Machine
end

section
/-! The default checksum function (40_crc.md R101 to R105). Two facts carry it: one repetition of R101 is linear over
XOR (`crcShift_xor`) and loses nothing (`crcShift_injective`), so the accumulator is linear, and injective in each
byte. -/

namespace Sys2Proof.Machine

/-! ### One repetition, and several -/

/-- R101's repetition without its branch: the shifted accumulator, and the polynomial when bit 7 was set. -/
theorem crcShift_eq (c : Byte) : crcShift c = (c <<< 1) ^^^ (bif c.getLsbD 7 then 0x07 else 0x00) := by
  unfold crcShift
  cases c.getLsbD 7 with
  | true => rfl
  | false => exact BitVec.xor_zero.symm

theorem crcShift_xor (a b : Byte) : crcShift (a ^^^ b) = crcShift a ^^^ crcShift b := by
  have hpoly : ∀ x y : Bool, (bif x ^^ y then 0x07 else 0x00 : Byte) =
      (bif x then 0x07 else 0x00) ^^^ (bif y then 0x07 else 0x00) := by decide
  rw [crcShift_eq, crcShift_eq, crcShift_eq, BitVec.getLsbD_xor, hpoly, BitVec.shiftLeft_xor_distrib]
  ac_rfl

/-- Bit 0 of the result is the bit shifted out, so no bit is lost. -/
theorem eq_zero_of_crcShift_eq_zero {c : Byte} (h : crcShift c = 0x00) : c = 0x00 := by
  rw [crcShift_eq] at h
  cases hmsb : c.getLsbD 7 with
  | true =>
    have hbit : (c <<< 1 ^^^ 0x07).getLsbD 0 = true := by simp
    rw [hmsb, cond_true] at h
    rw [h] at hbit
    exact absurd hbit (by decide)
  | false =>
    rw [hmsb, cond_false] at h
    have hlow : 2 * c.toNat < 2 ^ 8 :=
      BitVec.msb_eq_false_iff_two_mul_lt.mp ((BitVec.msb_eq_getLsbD_last c).trans hmsb)
    have hdouble : c <<< 1 = 0x00 := BitVec.xor_zero.symm.trans h
    bv_omega

theorem crcShift_injective : Function.Injective crcShift := by
  intro a b h
  have hzero : crcShift (a ^^^ b) = 0x00 := by rw [crcShift_xor, h]; exact BitVec.xor_self
  exact BitVec.xor_eq_zero_iff.mp (eq_zero_of_crcShift_eq_zero hzero)

theorem crcShifts_xor (n : Nat) (a b : Byte) : crcShifts n (a ^^^ b) = crcShifts n a ^^^ crcShifts n b := by
  induction n generalizing a b with
  | zero => rfl
  | succ n ih => simp only [crcShifts, crcShift_xor, ih]

theorem crcShifts_injective (n : Nat) : Function.Injective (crcShifts n) := by
  induction n with
  | zero => exact fun _ _ h => h
  | succ n ih => exact fun _ _ h => crcShift_injective (ih h)

@[simp] theorem crcShifts_zero (n : Nat) : crcShifts n 0#8 = 0#8 := by
  simpa using crcShifts_xor n 0#8 0#8

/-! ### The accumulator -/

theorem crcUpdate_xor (c d a b : Byte) : crcUpdate (c ^^^ d) (a ^^^ b) = crcUpdate c a ^^^ crcUpdate d b := by
  rw [crcUpdate, crcUpdate, crcUpdate, ← crcShifts_xor]
  congr 1
  ac_rfl

@[simp] theorem crcUpdate_zero_zero : crcUpdate 0#8 0#8 = 0#8 := by
  simp [crcUpdate]

/-- A byte brings the accumulator to 0 when it equals it, and no other byte does. -/
theorem crcUpdate_eq_zero_iff (c b : Byte) : crcUpdate c b = 0#8 ↔ c = b :=
  calc crcUpdate c b = 0#8
      ↔ crcShifts 8 (c ^^^ b) = crcShifts 8 0#8 := by rw [crcShifts_zero, crcUpdate]
    _ ↔ c ^^^ b = 0#8 := (crcShifts_injective 8).eq_iff
    _ ↔ c = b := BitVec.xor_eq_zero_iff

theorem crcUpdate_left_injective (b : Byte) : Function.Injective (crcUpdate · b) :=
  fun _ _ h => (BitVec.xor_left_inj b).mp (crcShifts_injective 8 h)

theorem crcUpdate_right_injective (c : Byte) : Function.Injective (crcUpdate c) :=
  fun _ _ h => (BitVec.xor_right_inj c).mp (crcShifts_injective 8 h)

theorem foldl_crcUpdate_injective (bs : List Byte) : Function.Injective (bs.foldl crcUpdate) := by
  induction bs with
  | nil => exact fun _ _ h => h
  | cons b bs ih => exact fun _ _ h => crcUpdate_left_injective b (ih h)

theorem foldl_crcUpdate_xor (as bs : List Byte) (hlen : as.length = bs.length) (c d : Byte) :
    (List.zipWith (fun x y => x ^^^ y) as bs).foldl crcUpdate (c ^^^ d) =
      as.foldl crcUpdate c ^^^ bs.foldl crcUpdate d := by
  induction as generalizing bs c d with
  | nil =>
    obtain rfl := List.length_eq_zero_iff.mp hlen.symm
    rfl
  | cons a as ih =>
    cases bs with
    | nil => exact nomatch hlen
    | cons b bs =>
      simp only [List.zipWith_cons_cons, List.foldl_cons, crcUpdate_xor]
      exact ih bs (Nat.succ.inj hlen) (crcUpdate c a) (crcUpdate d b)

/-! ### The laws (R104) -/

theorem crc8Default_zero_cons (bs : List Byte) : crc8Default (0x00 :: bs) = crc8Default bs := by
  simp [crc8Default]

theorem crc8Default_zeros (n : Nat) : crc8Default (List.replicate n 0x00) = 0 := by
  induction n with
  | zero => rfl
  | succ n ih => rw [List.replicate_succ, crc8Default_zero_cons, ih]

theorem crc8Default_xor (as bs : List Byte) (hlen : as.length = bs.length) :
    crc8Default (List.zipWith (fun x y => x ^^^ y) as bs) = crc8Default as ^^^ crc8Default bs :=
  foldl_crcUpdate_xor as bs hlen 0 0

/-- A sequence followed by one byte has checksum 0 exactly when that byte is the checksum of the sequence. -/
theorem crc8Default_append_eq_zero_iff (bs : List Byte) (c : Byte) :
    crc8Default (bs ++ [c]) = 0#8 ↔ crc8Default bs = c := by
  rw [crc8Default_append, List.foldl_cons, List.foldl_nil, crcUpdate_eq_zero_iff]

theorem crc8Default_append_checksum (bs : List Byte) : crc8Default (bs ++ [crc8Default bs]) = 0 :=
  (crc8Default_append_eq_zero_iff bs _).mpr rfl

/-- Settles O19: the three listed checksums are computed, the rest are the laws above. -/
theorem defaultCrcLaws : Obligations.DefaultCrcLaws :=
  ⟨crc8Default_nil, crc8Default_zeros, crc8Default_zero_cons, by decide, by decide, crc8Default_xor,
    crc8Default_append_checksum, by decide +kernel⟩

/-! ### The table forms (R102, R103) -/

/-- The table written out is the one that R101 computes. -/
theorem crcByteTable_eq_map : crcByteTable = (List.range 256).map (fun i => crcShifts 8 (BitVec.ofNat 8 i)) := by
  decide +kernel

theorem crcByteTable_getD (b : Byte) : crcByteTable.getD b.toNat 0 = crcShifts 8 b := by
  have hb : b.toNat < 256 := b.isLt
  simp [crcByteTable_eq_map, List.getD, hb]

theorem crc8Default_singleton (b : Byte) : crc8Default [b] = crcShifts 8 b := by
  simp [crc8Default, crcUpdate]

/-- Settles O21: the checksum of one byte is its eight shifts. -/
theorem byteTableOfDefaultCrc : Obligations.ByteTableOfDefaultCrc := by
  refine ⟨by simp [crcByteTable_eq_map], fun b => ?_⟩
  rw [crcByteTable_getD, crc8Default_singleton]

theorem forall_nibble {p : Byte → Prop} (h : ∀ i : Fin 16, p (BitVec.ofNat 8 i)) (x : Byte) (hx : x.toNat < 16) :
    p x := by
  simpa using h ⟨x.toNat, hx⟩

/-- Four shifts of a high nibble leave what the nibble table lists for it. -/
theorem crcShifts_four_high : ∀ x : Byte, x.toNat < 16 →
    crcShifts 4 (x <<< 4) = crcNibbleTable.getD x.toNat 0x00 :=
  forall_nibble (by decide)

/-- Four shifts of a low nibble reduce nothing. -/
theorem crcShifts_four_low : ∀ x : Byte, x.toNat < 16 → crcShifts 4 x = x <<< 4 :=
  forall_nibble (by decide)

theorem byte_eq_high_xor_low (c : Byte) : c = ((c >>> 4) <<< 4) ^^^ (c &&& 0x0F) := by
  ext i hi
  interval_cases i <;> simp

theorem low_nibble_shiftLeft (c : Byte) : (c &&& 0x0F) <<< 4 = c <<< 4 := by
  ext i hi
  interval_cases i <;> simp

/-- A nibble step is four repetitions of R101, by linearity one for each half of the byte. -/
theorem nibbleStep_eq_crcShifts (c : Byte) : nibbleStep c = crcShifts 4 c := by
  have hhigh : (c >>> 4).toNat < 16 := by bv_omega
  have hlow : (c &&& 0x0F).toNat < 16 := by
    rw [BitVec.toNat_and]
    exact Nat.lt_of_le_of_lt Nat.and_le_right (by decide)
  calc nibbleStep c
      = crcNibbleTable.getD (c >>> 4).toNat 0x00 ^^^ (c <<< 4) := rfl
    _ = crcShifts 4 ((c >>> 4) <<< 4) ^^^ crcShifts 4 (c &&& 0x0F) := by
        rw [crcShifts_four_high _ hhigh, crcShifts_four_low _ hlow, low_nibble_shiftLeft]
    _ = crcShifts 4 c := by rw [← crcShifts_xor, ← byte_eq_high_xor_low]

theorem nibbleStep_nibbleStep (c : Byte) : nibbleStep (nibbleStep c) = crcShifts 8 c := by
  rw [nibbleStep_eq_crcShifts, nibbleStep_eq_crcShifts]
  rfl

/-- Settles O20: each form's step is the accumulator's. -/
theorem tableFormsEqualBitwise : Obligations.TableFormsEqualBitwise := by
  intro bs
  refine ⟨?_, ?_, by decide⟩
  · simp only [crcByteTable_getD]
    rfl
  · simp only [nibbleStep_nibbleStep]
    rfl

/-! ### Single-bit errors (R105) -/

/-- One byte changed anywhere changes the accumulator: the step at that byte is injective in the byte, and every later
step is injective in the accumulator. -/
theorem foldl_crcUpdate_modify_ne (bs : List Byte) (i : Nat) (hi : i < bs.length) (f : Byte → Byte)
    (hf : ∀ b, f b ≠ b) (c : Byte) : (bs.modify i f).foldl crcUpdate c ≠ bs.foldl crcUpdate c := by
  induction bs generalizing i c with
  | nil => exact absurd hi (Nat.not_lt_zero i)
  | cons b bs ih =>
    cases i with
    | zero => exact fun h => hf b (crcUpdate_right_injective c (foldl_crcUpdate_injective bs h))
    | succ i => exact ih i (Nat.lt_of_succ_lt_succ hi) (crcUpdate c b)

theorem one_shiftLeft_ne_zero (j : Nat) (hj : j < 8) : (1#8 <<< j) ≠ 0 := by
  have key : ∀ j : Fin 8, (1#8 <<< j.val) ≠ 0 := by decide
  exact key ⟨j, hj⟩

theorem crc8Default_flipBit_ne (bs : List Byte) (k : Nat) (hk : k < 8 * bs.length) :
    crc8Default (flipBit bs k) ≠ crc8Default bs := by
  refine foldl_crcUpdate_modify_ne bs (k / 8) (by omega) _ (fun b h => ?_) 0
  exact one_shiftLeft_ne_zero (k % 8) (by omega) ((BitVec.xor_right_inj b).mp (h.trans BitVec.xor_zero.symm))

/-- Settles O22: the sequence with its checksum has checksum 0, and the flipped one has not. -/
theorem defaultCrcDetectsSingleBit : Obligations.DefaultCrcDetectsSingleBit := by
  intro bs k hk bs' c' hflip hagree
  have hne := crc8Default_flipBit_ne (bs ++ [crc8Default bs]) k (by simpa using hk)
  rw [hflip, crc8Default_append_checksum] at hne
  exact hne ((crc8Default_append_eq_zero_iff bs' c').mpr hagree)

end Sys2Proof.Machine
end

section
/-! The command CRC8 (40_crc.md R107, R108): its range, and what it answers over an encoded frame. -/

namespace Sys2Proof.Machine

/-- Settles O17. -/
theorem crc8CommandRule : Obligations.Crc8CommandRule := by
  refine ⟨ofByte_byte .crc8, fun s => ⟨fun hpast => ?_, fun hinside => ?_⟩⟩
  · rw [exec_crc8, execCrc8_eq, if_pos hpast]
    rfl
  · exact execCrc8_inside s hinside

/-- Settles O18: the range check does not look at FB, and the checksum is of equal bytes. -/
theorem crc8ReadsOnlyItsRange : Obligations.Crc8ReadsOnlyItsRange := by
  intro s t fb' hsame h
  have hrange : fb'.readBytes s.rangeOff.toNat s.rangeLen.toNat = s.fb.readBytes s.rangeOff.toNat s.rangeLen.toNat :=
    Memory.readBytes_congr _ _ _ _ fun i hi => hsame _ (by omega) (by omega)
  rw [exec_crc8, execCrc8_eq, Host.Outcome.next.injEq] at h
  subst h
  rw [exec_crc8, execCrc8_eq]
  dsimp only
  rw [hrange]
  split_ifs <;> rfl

/-! ### CRC8 over the first bytes of FB -/

theorem exec_crc8_firstBytes (s : State) (k : Nat) (c : Byte) (hk : k ≤ 31) (hc : crc8 s.cfg (s.fb.readBytes 0 k) = c) :
    exec .crc8 { s with rangeOff := 0, rangeLen := BitVec.ofNat 8 k } =
      .next { s with rangeOff := 0, rangeLen := BitVec.ofNat 8 k, status := 0x00, result := c } := by
  have hlen : (BitVec.ofNat 8 k).toNat = k := by
    rw [BitVec.toNat_ofNat]
    omega
  rw [exec_crc8, execCrc8_inside _ (by simpa [hlen] using hk), ← hc]
  simp only [hlen]
  rfl

/-! ### An encoded frame -/

theorem execEncode_ok {s t : State} (h : execEncode s = .next t) (hok : t.status = 0x00) :
    4 + s.mDataLen.toNat ≤ 31 ∧ t = done (4 + s.mDataLen.toNat) (withEncodedFrame s) := by
  obtain ⟨e, he, rfl⟩ | hframe := execEncode_cases h
  · exact absurd hok (raise_not_ok he s)
  · exact hframe

theorem withEncodedFrame_readBytes (s : State) :
    (withEncodedFrame s).fb.readBytes 0 (4 + s.mDataLen.toNat) = encodeBody s ++ [crc8 s.cfg (encodeBody s)] := by
  have hlen : (encodeBody s ++ [crc8 s.cfg (encodeBody s)]).length = 4 + s.mDataLen.toNat := by
    simp only [List.length_append, encodeBody_length, List.length_singleton]
    omega
  rw [← hlen]
  exact Memory.readBytes_writeBytes_same s.fb 0 _

/-- The last byte of the frame is the checksum of the bytes before it (R121). -/
theorem withEncodedFrame_checksum (s : State) :
    crc8 s.cfg ((withEncodedFrame s).fb.readBytes 0 (3 + s.mDataLen.toNat)) =
      (withEncodedFrame s).fb.readByte (3 + s.mDataLen.toNat) := by
  have hframe := withEncodedFrame_readBytes s
  rw [show 4 + s.mDataLen.toNat = 3 + s.mDataLen.toNat + 1 by omega, Memory.readBytes_succ, Nat.zero_add] at hframe
  obtain ⟨hbody, hlast⟩ := List.append_inj' hframe rfl
  rw [hbody, List.singleton_inj.mp hlast]

theorem withEncodedFrame_residue (s : State) (hcfg : s.cfg.crc = .default) :
    crc8 s.cfg ((withEncodedFrame s).fb.readBytes 0 (4 + s.mDataLen.toNat)) = 0 := by
  rw [withEncodedFrame_readBytes, crc8_standard _ _ hcfg, crc8_standard _ _ hcfg, crc8Default_append_checksum]

/-! ### What decides a decode -/

/-- The length checks of R135, and the checksum. -/
theorem decodeFrame_ok_iff {ctx : Bool} {s t : State} (h : decodeFrame ctx s = .next t) :
    t.status = 0x00 ↔
      4 ≤ s.len.toNat ∧ s.len.toNat ≤ 31 ∧ 4 + (s.fb.readByte 2).toNat ≤ s.len.toNat ∧
        crc8 s.cfg (s.fb.readBytes 0 (3 + (s.fb.readByte 2).toNat)) = s.fb.readByte (3 + (s.fb.readByte 2).toNat) := by
  rw [decodeFrame_eq, Host.Outcome.next.injEq] at h
  subst h
  by_cases hlong : 31 < s.len.toNat
  · rw [if_pos hlong]
    exact iff_of_false (raise_not_ok (by decide) _) (by omega)
  by_cases hshort : s.len.toNat < 4
  · rw [if_neg hlong, if_pos hshort]
    exact iff_of_false (raise_not_ok (by decide) _) (by omega)
  by_cases hlen : s.len.toNat < 4 + (s.fb.readByte 2).toNat
  · rw [if_neg hlong, if_neg hshort, if_pos hlen]
    exact iff_of_false (raise_not_ok (by decide) _) (by omega)
  rw [if_neg hlong, if_neg hshort, if_neg hlen]
  by_cases hcrc : crc8 s.cfg (s.fb.readBytes 0 (3 + (s.fb.readByte 2).toNat)) =
      s.fb.readByte (3 + (s.fb.readByte 2).toNat)
  · rw [if_neg (not_not.mpr hcrc)]
    exact iff_of_true rfl ⟨by omega, by omega, by omega, hcrc⟩
  · rw [if_pos hcrc]
    exact iff_of_false (raise_not_ok (by decide) _) fun ⟨_, _, _, hagree⟩ => hcrc hagree

/-- Settles O33: `exec_crc8_firstBytes` gives what CRC8 answers, over the frame that ENCODE wrote and over the one that
DECODE checks. -/
theorem checksumOfAnEncodedFrame : Obligations.ChecksumOfAnEncodedFrame := by
  refine ⟨fun s t h hok => ?_, fun s t h => ?_⟩
  · obtain ⟨hfits, rfl⟩ := execEncode_ok h hok
    exact ⟨exec_crc8_firstBytes _ _ _ (by omega) (withEncodedFrame_checksum s),
      fun hcfg => exec_crc8_firstBytes _ _ _ hfits (withEncodedFrame_residue s hcfg)⟩
  · rw [decodeFrame_ok_iff h]
    refine and_congr_right fun _ => and_congr_right fun _ => and_congr_right fun _ => ?_
    rw [exec_crc8_firstBytes s _ _ (by omega) rfl]
    simp

end Sys2Proof.Machine
end

section
/-! ENCODE (41_frame_codec.md R121 to R127): the check that decides it, how it ends by that check, and the frame it
writes, offset by offset. -/

namespace Sys2Proof.Machine

/-! ### What decides an ENCODE -/

/-- The first check of ENCODE that fails, in the order of R125; `ok` where none does. -/
def encodeVerdict (s : State) : Status :=
  if 31 < s.cap.toNat then .invalidArgument
  else if 27 < s.mDataLen.toNat then .payloadTooLarge
  else if s.cap.toNat < 4 + s.mDataLen.toNat then .bufferTooSmall
  else .ok

/-- How ENCODE ends by its verdict: the frame written, or the error raised and nothing else. -/
def encodeEnd (s : State) : Status → State
  | .ok => done (4 + s.mDataLen.toNat) (withEncodedFrame s)
  | e => raise e s

theorem execEncode_eq_encodeEnd (s : State) : execEncode s = .next (encodeEnd s (encodeVerdict s)) := by
  rw [execEncode_eq, encodeVerdict]
  split_ifs <;> rfl

theorem eq_ok_of_code_eq_zero {e : Status} (h : e.code = 0x00) : e = .ok :=
  by_contra fun hne => code_ne_zero_of_ne_ok hne h

theorem encodeEnd_status (s : State) (e : Status) : (encodeEnd s e).status = e.code := by
  cases e with
  | _ => rfl

theorem encodeEnd_result_congr {s s' : State} (hn : s'.mDataLen = s.mDataLen) (e : Status) :
    (encodeEnd s' e).result = (encodeEnd s e).result := by
  cases e with
  | ok => simp only [encodeEnd, done_result, hn]
  | _ => rfl

theorem encodeVerdict_congr {s s' : State} (hcap : s'.cap = s.cap) (hn : s'.mDataLen = s.mDataLen) :
    encodeVerdict s' = encodeVerdict s := by
  rw [encodeVerdict, encodeVerdict, hcap, hn]

section
variable {s : State}

theorem execEncode_invalidArgument (hcap : 31 < s.cap.toNat) : execEncode s = .next (raise .invalidArgument s) := by
  rw [execEncode_eq, if_pos hcap]

theorem execEncode_fits (hcap : s.cap.toNat ≤ 31) (hroom : 4 + s.mDataLen.toNat ≤ s.cap.toNat) :
    execEncode s = .next (done (4 + s.mDataLen.toNat) (withEncodedFrame s)) := by
  rw [execEncode_eq, if_neg (by omega), if_neg (by omega), if_neg (by omega)]
  rfl

theorem dataLen_le_of_encodeVerdict_ok (h : encodeVerdict s = .ok) : s.mDataLen.toNat ≤ 27 := by
  unfold encodeVerdict at h
  split_ifs at h
  omega

end

/-! ### The frame, offset by offset (R121, R126) -/

/-- Below its length the frame, and past it what FB held. -/
theorem readByte_withEncodedFrame (s : State) (a : Nat) :
    (withEncodedFrame s).fb.readByte a =
      (encodeBody s ++ [crc8 s.cfg (encodeBody s)]).getD a (s.fb.readByte a) := by
  refine (Memory.readByte_writeBytes s.fb 0 _ a).trans ?_
  split_ifs with ha
  · exact (List.getD_eq_getElem _ _ (by omega)).symm
  · exact (List.getD_eq_default _ _ (by omega)).symm

@[simp] theorem withEncodedFrame_typeId (s : State) : (withEncodedFrame s).fb.readByte 0 = s.mTypeId := by
  rw [readByte_withEncodedFrame]
  rfl

@[simp] theorem withEncodedFrame_opcode (s : State) : (withEncodedFrame s).fb.readByte 1 = s.mOpcode := by
  rw [readByte_withEncodedFrame]
  rfl

@[simp] theorem withEncodedFrame_dataLen (s : State) : (withEncodedFrame s).fb.readByte 2 = s.mDataLen := by
  rw [readByte_withEncodedFrame]
  rfl

theorem withEncodedFrame_payload (s : State) (i : Nat) (hi : i < s.mDataLen.toNat) :
    (withEncodedFrame s).fb.readByte (3 + i) = s.mData.readByte i := by
  have hbody : 3 + i < (encodeBody s).length := by
    rw [encodeBody_length]
    omega
  rw [readByte_withEncodedFrame, List.getD_append _ _ _ _ hbody, List.getD_eq_getElem _ _ hbody]
  simp [encodeBody, Nat.add_comm 3 i, Memory.getElem_readBytes]

theorem withEncodedFrame_crc (s : State) :
    (withEncodedFrame s).fb.readByte (3 + s.mDataLen.toNat) = crc8 s.cfg (encodeBody s) := by
  rw [readByte_withEncodedFrame, ← encodeBody_length, List.getD_append_right _ _ _ _ le_rfl, Nat.sub_self]
  rfl

theorem withEncodedFrame_past (s : State) (a : Nat) (ha : 4 + s.mDataLen.toNat ≤ a) :
    (withEncodedFrame s).fb.readByte a = s.fb.readByte a := by
  rw [readByte_withEncodedFrame, List.getD_eq_default]
  rw [List.length_append, encodeBody_length, List.length_singleton]
  omega

/-- Settles O23. -/
theorem encodeRule : Obligations.EncodeRule := by
  refine ⟨ofByte_byte .encode, fun s => ⟨?_, ?_, ?_, fun hcap _ hroom => ⟨(withEncodedFrame s).fb, ?_, ?_⟩⟩⟩
  · exact execEncode_invalidArgument
  · exact execEncode_payloadTooLarge s
  · exact execEncode_bufferTooSmall s
  · exact execEncode_fits hcap hroom
  · exact ⟨withEncodedFrame_typeId s, withEncodedFrame_opcode s, withEncodedFrame_dataLen s,
      withEncodedFrame_payload s, withEncodedFrame_crc s, withEncodedFrame_past s⟩

/-! ### What the frame depends on (R127) -/

theorem encodeBody_congr {s s' : State} (htype : s'.mTypeId = s.mTypeId) (hop : s'.mOpcode = s.mOpcode)
    (hn : s'.mDataLen = s.mDataLen)
    (hdata : ∀ i, i < s.mDataLen.toNat → s'.mData.readByte i = s.mData.readByte i) : encodeBody s' = encodeBody s := by
  have hpayload : s'.mData.readBytes 0 s.mDataLen.toNat = s.mData.readBytes 0 s.mDataLen.toNat :=
    Memory.readBytes_congr _ _ _ _ fun i hi => hdata _ (by omega)
  rw [encodeBody, encodeBody, htype, hop, hn, hpayload]

/-- Two states with the same parameters and the same header and payload bytes encode the same frame. -/
theorem withEncodedFrame_congr {s s' : State} (hcfg : s'.cfg = s.cfg) (hbody : encodeBody s' = encodeBody s)
    (a : Nat) (ha : a < 4 + s.mDataLen.toNat) :
    (withEncodedFrame s').fb.readByte a = (withEncodedFrame s).fb.readByte a := by
  have hframe : a < (encodeBody s ++ [crc8 s.cfg (encodeBody s)]).length := by
    rw [List.length_append, encodeBody_length, List.length_singleton]
    omega
  rw [readByte_withEncodedFrame, readByte_withEncodedFrame, hcfg, hbody, List.getD_eq_getElem _ _ hframe,
    List.getD_eq_getElem _ _ hframe]

/-- Settles O24: the verdict depends on CAP and M_DATA_LEN only, and an Ok one has a payload inside M_DATA. -/
theorem encodeReadsOnlyItsInputs : Obligations.EncodeReadsOnlyItsInputs := by
  intro s s' t t' hcfg hcap htype hop hn hdata h h'
  rw [exec_encode, execEncode_eq_encodeEnd, Host.Outcome.next.injEq] at h h'
  subst h h'
  rw [encodeVerdict_congr hcap hn, encodeEnd_status, encodeEnd_status]
  refine ⟨rfl, encodeEnd_result_congr hn _, fun hok => ?_⟩
  have hverdict := eq_ok_of_code_eq_zero hok
  have hbody := encodeBody_congr htype hop hn (hdata (dataLen_le_of_encodeVerdict_ok hverdict))
  rw [hverdict]
  exact ⟨congrArg (fun n : Byte => BitVec.ofNat 8 (4 + n.toNat)) hn, withEncodedFrame_congr hcfg hbody⟩

end Sys2Proof.Machine
end

section
/-! DECODE and DECODE.C (41_frame_codec.md R130 to R143): the check that decides them, how they end by that check, and
the message they write. -/

namespace Sys2Proof.Machine

/-! ### What decides a decode -/

/-- The first check of a decode that fails, in the order of R135; `ok` where none does. -/
def decodeVerdict (s : State) : Status :=
  if 31 < s.len.toNat then .invalidArgument
  else if s.len.toNat < 4 then .frameTooShort
  else if s.len.toNat < 4 + (s.fb.readByte 2).toNat then .malformedLength
  else if crc8 s.cfg (s.fb.readBytes 0 (3 + (s.fb.readByte 2).toNat)) ≠ s.fb.readByte (3 + (s.fb.readByte 2).toNat) then
    .crcMismatch
  else .ok

/-- How a decode ends by its verdict: the message written, or the error raised; the statistics updated with a Context
only, and on two verdicts only (R137). -/
def decodeEnd (ctx : Bool) (s : State) : Status → State
  | .ok => done (4 + (s.fb.readByte 2).toNat) (if ctx then noteCrcOk (withDecodedMessage s) else withDecodedMessage s)
  | .crcMismatch => raise .crcMismatch (if ctx then noteCrcError s else s)
  | e => raise e s

theorem decodeFrame_eq_decodeEnd (ctx : Bool) (s : State) :
    decodeFrame ctx s = .next (decodeEnd ctx s (decodeVerdict s)) := by
  rw [decodeFrame_eq, decodeVerdict]
  simp only [apply_ite (decodeEnd ctx s)]
  rfl

theorem decodeFrame_of_verdict {ctx : Bool} {s : State} {e : Status} (h : decodeVerdict s = e) :
    decodeFrame ctx s = .next (decodeEnd ctx s e) := by
  rw [decodeFrame_eq_decodeEnd, h]

/-- DECODE and DECODE.C are the two values of the `C` bit. -/
theorem exec_decode_or_decodeC {i : Instr} (h : i = .decode ∨ i = .decodeC) (s : State) :
    exec i s = .next (decodeEnd (i == .decodeC) s (decodeVerdict s)) := by
  obtain rfl | rfl := h
  · exact decodeFrame_eq_decodeEnd false s
  · exact decodeFrame_eq_decodeEnd true s

section
variable {s : State}

theorem decodeVerdict_long (hlong : 31 < s.len.toNat) : decodeVerdict s = .invalidArgument := by
  rw [decodeVerdict, if_pos hlong]

theorem decodeVerdict_short (hshort : s.len.toNat < 4) : decodeVerdict s = .frameTooShort := by
  rw [decodeVerdict, if_neg (by omega), if_pos hshort]

theorem decodeVerdict_malformed (hmin : 4 ≤ s.len.toNat) (hmax : s.len.toNat ≤ 31)
    (hlen : s.len.toNat < 4 + (s.fb.readByte 2).toNat) : decodeVerdict s = .malformedLength := by
  rw [decodeVerdict, if_neg (by omega), if_neg (by omega), if_pos hlen]

theorem decodeVerdict_complete (hmin : 4 ≤ s.len.toNat) (hmax : s.len.toNat ≤ 31)
    (hlen : 4 + (s.fb.readByte 2).toNat ≤ s.len.toNat) :
    decodeVerdict s =
      if crc8 s.cfg (s.fb.readBytes 0 (3 + (s.fb.readByte 2).toNat)) = s.fb.readByte (3 + (s.fb.readByte 2).toNat)
      then .ok else .crcMismatch := by
  rw [decodeVerdict, if_neg (by omega), if_neg (by omega), if_neg (by omega), ite_not]

theorem decodeVerdict_mismatch (hmin : 4 ≤ s.len.toNat) (hmax : s.len.toNat ≤ 31)
    (hlen : 4 + (s.fb.readByte 2).toNat ≤ s.len.toNat)
    (hcrc : crc8 s.cfg (s.fb.readBytes 0 (3 + (s.fb.readByte 2).toNat)) ≠ s.fb.readByte (3 + (s.fb.readByte 2).toNat)) :
    decodeVerdict s = .crcMismatch := by
  rw [decodeVerdict_complete hmin hmax hlen, if_neg hcrc]

theorem decodeVerdict_agrees (hmin : 4 ≤ s.len.toNat) (hmax : s.len.toNat ≤ 31)
    (hlen : 4 + (s.fb.readByte 2).toNat ≤ s.len.toNat)
    (hcrc : crc8 s.cfg (s.fb.readBytes 0 (3 + (s.fb.readByte 2).toNat)) = s.fb.readByte (3 + (s.fb.readByte 2).toNat)) :
    decodeVerdict s = .ok := by
  rw [decodeVerdict_complete hmin hmax hlen, if_pos hcrc]

theorem decodeVerdict_congr {t : State} (hcfg : t.cfg = s.cfg) (hlen : t.len = s.len) (hfb : t.fb = s.fb) :
    decodeVerdict t = decodeVerdict s := by
  rw [decodeVerdict, decodeVerdict, hcfg, hlen, hfb]

end

/-! ### What a decode leaves, by its verdict -/

section
variable (ctx : Bool) (s : State) (e : Status)

@[simp] theorem decodeEnd_status : (decodeEnd ctx s e).status = e.code := by
  cases e with
  | _ => rfl

@[simp] theorem decodeEnd_fb : (decodeEnd ctx s e).fb = s.fb := by
  cases ctx <;> cases e with
  | _ => rfl

@[simp] theorem decodeEnd_len : (decodeEnd ctx s e).len = s.len := by
  cases ctx <;> cases e with
  | _ => rfl

@[simp] theorem decodeEnd_cfg : (decodeEnd ctx s e).cfg = s.cfg := by
  cases ctx <;> cases e with
  | _ => rfl

/-- The statistics of R137, without a Context. -/
theorem decodeEnd_false_statistics :
    (decodeEnd false s e).lastCrcOk = s.lastCrcOk ∧ (decodeEnd false s e).crcErrorCount = s.crcErrorCount := by
  cases e with
  | _ => exact ⟨rfl, rfl⟩

/-- The statistics of R137, with the Context supplied. -/
theorem decodeEnd_true_statistics :
    (decodeEnd true s e).lastCrcOk = (if e.code = 0x00 then true else if e.code = 0x06 then false else s.lastCrcOk) ∧
    (decodeEnd true s e).crcErrorCount =
      if e.code = 0x06 then inc32 s.cfg.cntOvf s.crcErrorCount else s.crcErrorCount := by
  cases e with
  | _ => exact ⟨rfl, rfl⟩

/-- The payload of a decoded message, offset by offset (R136). -/
theorem readByte_withDecodedMessage (a : Nat) :
    (withDecodedMessage s).mData.readByte a =
      if a < (s.fb.readByte 2).toNat then s.fb.readByte (3 + a) else s.mData.readByte a := by
  refine (Memory.readByte_writeBytes s.mData 0 _ a).trans ?_
  simp [Memory.getElem_readBytes]

/-- What a decoded message is: the header and payload bytes of the frame (R136). -/
theorem messageOf_withDecodedMessage :
    messageOf (withDecodedMessage s) = (s.fb.readByte 0, s.fb.readByte 1, s.fb.readByte 2,
      s.fb.readBytes 3 (s.fb.readByte 2).toNat) := by
  have hpayload : (withDecodedMessage s).mData.readBytes 0 (s.fb.readByte 2).toNat =
      s.fb.readBytes 3 (s.fb.readByte 2).toNat := by
    have h := Memory.readBytes_writeBytes_same s.mData 0 (s.fb.readBytes 3 (s.fb.readByte 2).toNat)
    rwa [Memory.readBytes_length] at h
  rw [← hpayload]
  rfl

theorem result_decodeEnd_ok : (decodeEnd ctx s .ok).result = BitVec.ofNat 8 (4 + (s.fb.readByte 2).toNat) := rfl

theorem mDataLen_decodeEnd_ok : (decodeEnd ctx s .ok).mDataLen = s.fb.readByte 2 := by
  cases ctx with
  | _ => rfl

theorem messageOf_decodeEnd_ok : messageOf (decodeEnd ctx s .ok) = messageOf (withDecodedMessage s) := by
  cases ctx with
  | _ => rfl

theorem mCrc_decodeEnd_ok : (decodeEnd ctx s .ok).mCrc = s.fb.readByte (3 + (s.fb.readByte 2).toNat) := by
  cases ctx with
  | _ => rfl

theorem messageOf_decodeEnd_error (he : e ≠ .ok) :
    messageOf (decodeEnd ctx s e) = messageOf s ∧ (decodeEnd ctx s e).mCrc = s.mCrc := by
  cases ctx <;> cases e with
  | ok => exact absurd rfl he
  | _ => exact ⟨rfl, rfl⟩

end

/-! ### The two commands (R142, R143) and the order of their checks (R135) -/

/-- R142 and R143 at once, each check of R135 by its own condition. -/
theorem decodeFrame_rule (ctx : Bool) (s : State) :
    let L := s.len.toNat
    let n := (s.fb.readByte 2).toNat
    (31 < L → decodeFrame ctx s = .next (decodeEnd ctx s .invalidArgument)) ∧
    (L < 4 → decodeFrame ctx s = .next (decodeEnd ctx s .frameTooShort)) ∧
    (4 ≤ L → L ≤ 31 → L < 4 + n → decodeFrame ctx s = .next (decodeEnd ctx s .malformedLength)) ∧
    (4 ≤ L → L ≤ 31 → 4 + n ≤ L → crc8 s.cfg (s.fb.readBytes 0 (3 + n)) ≠ s.fb.readByte (3 + n) →
      decodeFrame ctx s = .next (decodeEnd ctx s .crcMismatch)) ∧
    (4 ≤ L → L ≤ 31 → 4 + n ≤ L → crc8 s.cfg (s.fb.readBytes 0 (3 + n)) = s.fb.readByte (3 + n) →
      decodeFrame ctx s = .next (decodeEnd ctx s .ok)) :=
  ⟨fun hlong => decodeFrame_of_verdict (decodeVerdict_long hlong),
    fun hshort => decodeFrame_of_verdict (decodeVerdict_short hshort),
    fun hmin hmax hlen => decodeFrame_of_verdict (decodeVerdict_malformed hmin hmax hlen),
    fun hmin hmax hlen hcrc => decodeFrame_of_verdict (decodeVerdict_mismatch hmin hmax hlen hcrc),
    fun hmin hmax hlen hcrc => decodeFrame_of_verdict (decodeVerdict_agrees hmin hmax hlen hcrc)⟩

/-- Settles O26: without a Context no ending writes the statistics. -/
theorem decodeRule : Obligations.DecodeRule := by
  refine ⟨ofByte_byte .decode, fun s => ?_⟩
  obtain ⟨hlong, hshort, hmalformed, hmismatch, hok⟩ := decodeFrame_rule false s
  exact ⟨hlong, hshort, hmalformed, hmismatch, fun hmin hmax hlen hcrc =>
    ⟨(withDecodedMessage s).mData, hok hmin hmax hlen hcrc, readByte_withDecodedMessage s⟩⟩

/-- Settles O27: with the Context supplied two of the endings write the statistics. -/
theorem decodeCRule : Obligations.DecodeCRule := by
  refine ⟨ofByte_byte .decodeC, fun s => ?_⟩
  obtain ⟨hlong, hshort, hmalformed, hmismatch, hok⟩ := decodeFrame_rule true s
  exact ⟨hlong, hshort, hmalformed, hmismatch, fun hmin hmax hlen hcrc =>
    ⟨(withDecodedMessage s).mData, hok hmin hmax hlen hcrc, readByte_withDecodedMessage s⟩⟩

/-- Settles O28: STATUS holds the code of the verdict, which is that nested choice. -/
theorem decodeChecksInOrder : Obligations.DecodeChecksInOrder := by
  intro s t i hi h
  rw [exec_decode_or_decodeC hi, Host.Outcome.next.injEq] at h
  subst h
  rw [decodeEnd_status, decodeVerdict]
  simp only [apply_ite Status.code]
  rfl

/-! ### A decode repeated (R141) -/

/-- The second decode of one frame leaves the message registers as the first one did. -/
theorem decodeEnd_decodeEnd (ctx : Bool) (s : State) (e : Status) :
    (decodeEnd ctx (decodeEnd ctx s e) e).result = (decodeEnd ctx s e).result ∧
    messageOf (decodeEnd ctx (decodeEnd ctx s e) e) = messageOf (decodeEnd ctx s e) ∧
    (decodeEnd ctx (decodeEnd ctx s e) e).mCrc = (decodeEnd ctx s e).mCrc := by
  cases e with
  | ok =>
    refine ⟨?_, ?_, ?_⟩
    · simp only [result_decodeEnd_ok, decodeEnd_fb]
    · simp only [messageOf_decodeEnd_ok, messageOf_withDecodedMessage, decodeEnd_fb]
    · simp only [mCrc_decodeEnd_ok, decodeEnd_fb]
  | _ => exact ⟨rfl, messageOf_decodeEnd_error ctx _ _ nofun⟩

/-- Settles O30: a decode keeps all its verdict depends on. -/
theorem decodeMayBeRepeated : Obligations.DecodeMayBeRepeated := by
  intro s t i hi h
  rw [exec_decode_or_decodeC hi, Host.Outcome.next.injEq] at h
  subst h
  have hverdict := decodeVerdict_congr (decodeEnd_cfg (i == .decodeC) s (decodeVerdict s))
    (decodeEnd_len _ _ _) (decodeEnd_fb _ _ _)
  obtain ⟨hresult, hmessage, hcrc⟩ := decodeEnd_decodeEnd (i == .decodeC) s (decodeVerdict s)
  refine ⟨decodeEnd_fb _ _ _, decodeEnd_len _ _ _, _, exec_decode_or_decodeC hi _, ?_⟩
  rw [hverdict]
  refine ⟨by rw [decodeEnd_status, decodeEnd_status], hresult, hmessage, hcrc, ?_⟩
  rintro rfl hmismatch
  rw [decodeEnd_status] at hmismatch
  obtain ⟨-, hcount⟩ := decodeEnd_true_statistics (decodeEnd true s (decodeVerdict s)) (decodeVerdict s)
  exact hcount.trans (if_pos hmismatch)

end Sys2Proof.Machine
end

section
/-! ENCODE and a decode of its frame (41_frame_codec.md R138, R139): what is read back, and what one flipped bit of
the frame does to the verdict. -/

namespace Sys2Proof.Machine

/-! ### What ENCODE writes, a decode reads back (R138) -/

theorem withEncodedFrame_len_toNat (s : State) (hfits : 4 + s.mDataLen.toNat ≤ 31) :
    (withEncodedFrame s).len.toNat = 4 + s.mDataLen.toNat := by
  refine (BitVec.toNat_ofNat _ _).trans (Nat.mod_eq_of_lt ?_)
  omega

theorem withEncodedFrame_readPayload (s : State) :
    (withEncodedFrame s).fb.readBytes 3 s.mDataLen.toNat = s.mData.readBytes 0 s.mDataLen.toNat := by
  refine List.map_congr_left fun i hi => ?_
  rw [withEncodedFrame_payload s i (List.mem_range.mp hi), Nat.zero_add]

theorem decodeVerdict_withEncodedFrame (s : State) (hfits : 4 + s.mDataLen.toNat ≤ 31) :
    decodeVerdict (withEncodedFrame s) = .ok := by
  have hlen := withEncodedFrame_len_toNat s hfits
  apply decodeVerdict_agrees
  · omega
  · omega
  · rw [withEncodedFrame_dataLen, hlen]
  · rw [withEncodedFrame_dataLen]
    exact withEncodedFrame_checksum s

/-- Settles O31: the frame passes every check of R135, and its fields are those of the message encoded. -/
theorem encodeThenDecodeGivesTheMessageBack : Obligations.EncodeThenDecodeGivesTheMessageBack := by
  intro s i hi _ hroom hcap
  have hverdict : decodeVerdict (done (4 + s.mDataLen.toNat) (withEncodedFrame s)) = .ok :=
    decodeVerdict_withEncodedFrame s (by omega)
  have hdecode := exec_decode_or_decodeC hi (done (4 + s.mDataLen.toNat) (withEncodedFrame s))
  rw [hverdict] at hdecode
  refine ⟨_, _, execEncode_fits hcap hroom, hdecode, rfl, rfl, ?_, ?_, ?_, ?_, ?_⟩
  · rw [messageOf_decodeEnd_ok, messageOf_withDecodedMessage, done_fb, withEncodedFrame_typeId,
      withEncodedFrame_opcode, withEncodedFrame_dataLen, withEncodedFrame_readPayload]
    rfl
  · rw [mCrc_decodeEnd_ok, decodeEnd_fb, done_fb, withEncodedFrame_dataLen]
  · rw [decodeEnd_len]
    rfl
  · rw [result_decodeEnd_ok, done_fb, withEncodedFrame_dataLen]
  · rintro rfl
    rfl

/-! ### One flipped bit of the frame (R139) -/

/-- `s` with bit `b` of `FB[j]` flipped. -/
def withFlippedBit (s : State) (j b : Nat) : State :=
  { s with fb := s.fb.writeByte j (s.fb.readByte j ^^^ (1#8 <<< b)) }

theorem withFlippedBit_same (s : State) (j b : Nat) :
    (withFlippedBit s j b).fb.readByte j = s.fb.readByte j ^^^ (1#8 <<< b) :=
  Memory.readByte_writeByte_same _ _ _

theorem withFlippedBit_ne (s : State) {j a : Nat} (b : Nat) (h : a ≠ j) :
    (withFlippedBit s j b).fb.readByte a = s.fb.readByte a :=
  Memory.readByte_writeByte_ne _ _ _ _ h

/-- Bit `b` of byte `j` is bit `8*j + b` of the sequence. -/
theorem withFlippedBit_readBytes (s : State) {j b : Nat} (k : Nat) (hb : b < 8) :
    (withFlippedBit s j b).fb.readBytes 0 k = flipBit (s.fb.readBytes 0 k) (8 * j + b) := by
  have hbyte : (8 * j + b) / 8 = j := by omega
  have hbit : (8 * j + b) % 8 = b := by omega
  rw [flipBit, hbyte, hbit]
  refine List.ext_getElem (by simp) fun i hi _ => ?_
  rw [List.getElem_modify, Memory.getElem_readBytes, Memory.getElem_readBytes, Nat.zero_add]
  split_ifs with hij
  · rw [← hij, withFlippedBit_same]
  · exact withFlippedBit_ne s b (Ne.symm hij)

theorem singleBit_crc8 {cfg : Config} (h : cfg.crc = .default ∨ SingleBit (crc8 cfg)) : SingleBit (crc8 cfg) := by
  obtain hdefault | hsingle := h
  · rw [show crc8 cfg = crc8Default from funext fun bs => crc8_standard cfg bs hdefault]
    exact defaultCrcDetectsSingleBit
  · exact hsingle

section
variable {s : State} {j b : Nat} (hfits : 4 + s.mDataLen.toNat ≤ 31)
include hfits

/-- With the length byte intact the decode checks the frame that was sent, and its checksum no longer agrees. -/
theorem decodeVerdict_flipped_outside_length (hsingle : SingleBit (crc8 s.cfg)) (hj : j < 4 + s.mDataLen.toNat)
    (hb : b < 8) (hj2 : j ≠ 2) : decodeVerdict (withFlippedBit (withEncodedFrame s) j b) = .crcMismatch := by
  have hlen : (withFlippedBit (withEncodedFrame s) j b).len.toNat = _ := withEncodedFrame_len_toNat s hfits
  have hdataLen : (withFlippedBit (withEncodedFrame s) j b).fb.readByte 2 = s.mDataLen := by
    rw [withFlippedBit_ne _ b hj2.symm, withEncodedFrame_dataLen]
  have hflip := withFlippedBit_readBytes (withEncodedFrame s) (j := j) (4 + s.mDataLen.toNat) hb
  rw [withEncodedFrame_readBytes, show 4 + s.mDataLen.toNat = 3 + s.mDataLen.toNat + 1 by omega,
    Memory.readBytes_succ, Nat.zero_add] at hflip
  apply decodeVerdict_mismatch
  · omega
  · omega
  · rw [hdataLen, hlen]
  · rw [hdataLen]
    exact hsingle (encodeBody s) _ (by rw [encodeBody_length]; omega) _ _ hflip.symm

/-- A raised length byte asks for more bytes than LEN gives. -/
theorem decodeVerdict_raised_length (hraised : s.mDataLen.toNat < (s.mDataLen ^^^ (1#8 <<< b)).toNat) :
    decodeVerdict (withFlippedBit (withEncodedFrame s) 2 b) = .malformedLength := by
  have hlen : (withFlippedBit (withEncodedFrame s) 2 b).len.toNat = _ := withEncodedFrame_len_toNat s hfits
  apply decodeVerdict_malformed
  · omega
  · omega
  · rw [withFlippedBit_same, withEncodedFrame_dataLen]
    omega

/-- A lowered length byte makes a shorter frame, judged by its own last byte. -/
theorem decodeVerdict_lowered_length {n' : Nat} (hn' : (s.mDataLen ^^^ (1#8 <<< b)).toNat = n')
    (hlowered : n' < s.mDataLen.toNat) :
    decodeVerdict (withFlippedBit (withEncodedFrame s) 2 b) =
      if crc8 s.cfg ((withFlippedBit (withEncodedFrame s) 2 b).fb.readBytes 0 (3 + n')) =
        (withFlippedBit (withEncodedFrame s) 2 b).fb.readByte (3 + n') then .ok else .crcMismatch := by
  have hlen : (withFlippedBit (withEncodedFrame s) 2 b).len.toNat = _ := withEncodedFrame_len_toNat s hfits
  have hdataLen : ((withFlippedBit (withEncodedFrame s) 2 b).fb.readByte 2).toNat = n' := by
    rw [withFlippedBit_same, withEncodedFrame_dataLen, hn']
  have hcomplete := decodeVerdict_complete (s := withFlippedBit (withEncodedFrame s) 2 b)
    (by omega) (by omega) (by omega)
  rwa [hdataLen] at hcomplete

end

/-- The message of a shorter frame is a truncation of the one encoded. -/
theorem withDecodedMessage_lowered_length {s : State} {b n' : Nat} (hn' : (s.mDataLen ^^^ (1#8 <<< b)).toNat = n')
    (hlowered : n' < s.mDataLen.toNat) (i : Nat) (hi : i < n') :
    (withDecodedMessage (withFlippedBit (withEncodedFrame s) 2 b)).mData.readByte i = s.mData.readByte i := by
  rw [readByte_withDecodedMessage, withFlippedBit_same, withEncodedFrame_dataLen, hn', if_pos hi,
    withFlippedBit_ne _ b (by omega), withEncodedFrame_payload s i (by omega)]

/-- Settles O32: the decode ends by its verdict on the flipped frame, one lemma per case. -/
theorem singleBitCorruption : Obligations.SingleBitCorruption := by
  intro s t v j b hencode hok hj hb hdecode n'
  obtain ⟨hfits, rfl⟩ := execEncode_ok hencode hok
  have hv : v = decodeEnd true (withFlippedBit (done (4 + s.mDataLen.toNat) (withEncodedFrame s)) j b)
      (decodeVerdict (withFlippedBit (withEncodedFrame s) j b)) :=
    (Host.Outcome.next.inj ((decodeFrame_eq_decodeEnd true _).symm.trans hdecode)).symm
  refine ⟨fun hj2 hcrc => ?_, ?_, ?_⟩
  · rw [decodeVerdict_flipped_outside_length hfits (singleBit_crc8 hcrc) hj hb hj2] at hv
    subst hv
    exact ⟨rfl, rfl, rfl⟩
  · rintro rfl hraised
    rw [decodeVerdict_raised_length hfits hraised] at hv
    subst hv
    exact ⟨rfl, rfl, rfl⟩
  · rintro rfl hlowered
    rw [decodeVerdict_lowered_length hfits rfl hlowered] at hv
    have hfb : v.fb = (withFlippedBit (withEncodedFrame s) 2 b).fb := by
      rw [hv, decodeEnd_fb]
      rfl
    rw [hfb]
    split_ifs at hv ⊢ with hagree
    · subst hv
      refine ⟨rfl, fun _ => ⟨?_, withDecodedMessage_lowered_length rfl hlowered⟩⟩
      rw [mDataLen_decodeEnd_ok, withFlippedBit_same, done_fb, withEncodedFrame_dataLen]
    · subst hv
      exact ⟨rfl, fun h => absurd h (raise_not_ok (by decide) _)⟩

end Sys2Proof.Machine
end

section
/-! The statistics LAST_CRC_OK and CRC_ERROR_COUNT over the whole machine (41_frame_codec.md R137). -/

namespace Sys2Proof.Machine

/-- Both statistics are in `t` as in `s`. -/
def SameStatistics (s t : State) : Prop := t.lastCrcOk = s.lastCrcOk ∧ t.crcErrorCount = s.crcErrorCount

theorem putBytes_sameStatistics {k : Nat} {s t : State} (h : putBytes k s = .next t) : SameStatistics s t := by
  obtain rfl | ⟨-, rfl⟩ := putBytes_cases h
  · exact ⟨rfl, rfl⟩
  · exact ⟨rfl, rfl⟩

theorem getBytes_sameStatistics {k : Nat} {s t : State} (h : getBytes k s = .next t) : SameStatistics s t := by
  obtain rfl | rfl := getBytes_cases h
  · exact ⟨rfl, rfl⟩
  · exact ⟨rfl, rfl⟩

theorem execCrc8_sameStatistics {s t : State} (h : execCrc8 s = .next t) : SameStatistics s t := by
  obtain rfl | rfl := execCrc8_cases h
  · exact ⟨rfl, rfl⟩
  · exact ⟨rfl, rfl⟩

theorem execEncode_sameStatistics {s t : State} (h : execEncode s = .next t) : SameStatistics s t := by
  obtain ⟨e, -, rfl⟩ | ⟨-, rfl⟩ := execEncode_cases h
  · exact ⟨rfl, rfl⟩
  · exact ⟨rfl, rfl⟩

theorem decodeFrame_false_sameStatistics {s t : State} (h : decodeFrame false s = .next t) : SameStatistics s t := by
  cases (decodeFrame_eq_decodeEnd false s).symm.trans h
  exact decodeEnd_false_statistics s _

/-- Every command but DECODE.C leaves the statistics. -/
theorem exec_command_sameStatistics {c : Command} (hc : c ≠ .decodeC) {s t : State}
    (h : exec c.toInstr s = .next t) : SameStatistics s t := by
  cases c with
  | crc8 => exact execCrc8_sameStatistics h
  | encode => exact execEncode_sameStatistics h
  | decode => exact decodeFrame_false_sameStatistics h
  | decodeC => exact absurd rfl hc
  | put8 => exact putBytes_sameStatistics (k := 1) h
  | put16 => exact putBytes_sameStatistics (k := 2) h
  | put32 => exact putBytes_sameStatistics (k := 4) h
  | get8 => exact getBytes_sameStatistics (k := 1) h
  | get16 => exact getBytes_sameStatistics (k := 2) h
  | get32 => exact getBytes_sameStatistics (k := 4) h

theorem exec_sameStatistics {i : Instr} (hi : ¬ Issues i .decodeC) {s t : State} (h : exec i s = .next t) :
    SameStatistics s t := by
  obtain ⟨n, -, hread⟩ | ⟨r, v, -, -, hstore⟩ | ⟨c, hissues⟩ | hreserved | hignored := exec_cases i s
  · cases hread.symm.trans h
    exact ⟨rfl, rfl⟩
  · cases hstore.symm.trans h
    exact ⟨writeReg_lastCrcOk s v r, writeReg_crcErrorCount s v r⟩
  · rw [exec_issued hissues] at h
    exact exec_command_sameStatistics (fun hc => hi (hc ▸ hissues)) h
  · cases hreserved.symm.trans h
    exact ⟨rfl, rfl⟩
  · cases hignored.symm.trans h
    exact ⟨rfl, rfl⟩

/-- Settles O44: a DECODE.C ends by its verdict, whose code STATUS holds. -/
theorem onlyDecodeWithContextTouchesStatistics : Obligations.OnlyDecodeWithContextTouchesStatistics := by
  intro i s t h
  refine ⟨fun hissues => ?_, fun hother => exec_sameStatistics hother h⟩
  rw [exec_issued hissues] at h
  cases (decodeFrame_eq_decodeEnd true s).symm.trans h
  rw [decodeEnd_status]
  exact decodeEnd_true_statistics s _

end Sys2Proof.Machine
end

section
/-! The marshal unit, operation by operation (42_payload_marshal.md R151 to R167): what a value's little-endian bytes
and the value read back from them are, and how each PUT and GET ends. -/

namespace Sys2Proof.Machine

/-! ### Little-endian values, bit by bit (20_memory.md R54) -/

theorem getLsbD_byteOf (v : Word) (i j : Nat) (hj : j < 8) : (byteOf v i).getLsbD j = v.getLsbD (8 * i + j) := by
  simp [byteOf, hj]

/-- Bit `i` of a value is in its byte `i / 8`; a byte that is not given is 0. -/
theorem getLsbD_leValue (bs : List Byte) (i : Nat) (hi : i < 32) :
    (leValue bs).getLsbD i = (bs.getD (i / 8) 0).getLsbD (i % 8) := by
  induction bs generalizing i with
  | nil => simp
  | cons b bs ih =>
    rw [leValue_cons, BitVec.getLsbD_or, BitVec.getLsbD_setWidth, BitVec.getLsbD_shiftLeft]
    by_cases hlow : i < 8
    · rw [Nat.div_eq_of_lt hlow, Nat.mod_eq_of_lt hlow]
      simp [hi, hlow]
    · have hbyte : i / 8 = (i - 8) / 8 + 1 := by omega
      have hbit : i % 8 = (i - 8) % 8 := by omega
      have habove : b.getLsbD i = false := BitVec.getLsbD_of_ge b i (by omega)
      rw [hbyte, hbit, List.getD_cons_succ, ← ih (i - 8) (by omega)]
      simp [hi, hlow, habove]

theorem getLsbD_truncate (w : MarshalWidth) (v : Word) (i : Nat) :
    (w.truncate v).getLsbD i = (decide (i < 8 * w.bytes) && v.getLsbD i) := by
  rw [MarshalWidth.truncate, BitVec.getLsbD_ofNat, Nat.testBit_mod_two_pow, BitVec.testBit_toNat]
  by_cases hi : i < 32
  · simp [hi]
  · simp [hi, BitVec.getLsbD_of_ge v i (by omega)]

/-- The low bytes of a value are those of the value truncated. -/
theorem leBytes_truncate (w : MarshalWidth) (v : Word) : leBytes (w.truncate v) w.bytes = leBytes v w.bytes := by
  refine List.map_congr_left fun i hi => BitVec.eq_of_getLsbD_eq fun j hj => ?_
  have hlow : 8 * i + j < 8 * w.bytes := by
    have := List.mem_range.mp hi
    omega
  rw [getLsbD_byteOf _ i j hj, getLsbD_byteOf _ i j hj, getLsbD_truncate, decide_eq_true hlow, Bool.true_and]

theorem leValue_leBytes (w : MarshalWidth) (v : Word) : leValue (leBytes v w.bytes) = w.truncate v := by
  refine BitVec.eq_of_getLsbD_eq fun i hi => ?_
  rw [getLsbD_leValue _ i hi, getLsbD_truncate]
  by_cases hlow : i < 8 * w.bytes
  · have hbyte : i / 8 < (leBytes v w.bytes).length := by
      rw [leBytes_length]
      omega
    rw [List.getD_eq_getElem _ _ hbyte, getElem_leBytes, getLsbD_byteOf _ _ _ (by omega), Nat.div_add_mod]
    simp [hlow]
  · rw [List.getD_eq_default _ _ (by rw [leBytes_length]; omega)]
    simp [hlow]

/-! ### How a PUT and a GET end (R151, R154) -/

section
variable {k : Nat} {s : State}

theorem putBytes_refused (h : 27 < s.mDataLen.toNat + k) : putBytes k s = .next (raise .marshalRefused s) := by
  rw [putBytes_eq, if_pos h]

theorem putBytes_fits (h : s.mDataLen.toNat + k ≤ 27) :
    putBytes k s = .next (done (s.mDataLen.toNat + k) (setDataLen (s.mDataLen.toNat + k)
      { s with mData := s.mData.writeBytes s.mDataLen.toNat (leBytes s.val k) })) := by
  rw [putBytes_eq, if_neg (by omega)]

theorem getBytes_refused (h : min s.mDataLen.toNat 27 < s.rpos.toNat + k) :
    getBytes k s = .next (raise .marshalRefused s) := by
  rw [getBytes_eq, if_pos (by omega)]

theorem getBytes_inside (h : s.rpos.toNat + k ≤ min s.mDataLen.toNat 27) :
    getBytes k s = .next (done (s.rpos.toNat + k)
      (setRead (leValue (s.mData.readBytes s.rpos.toNat k)) (s.rpos.toNat + k) s)) := by
  rw [getBytes_eq, if_neg (by omega)]

end

/-! ### The PUTs -/

/-- Settles O34. -/
theorem put8Rule : Obligations.Put8Rule :=
  ⟨ofByte_byte .put8, fun s => ⟨putBytes_refused (k := 1) (s := s), putBytes_fits (k := 1) (s := s)⟩⟩

/-- Settles O35: two bytes stored one after the other. -/
theorem put16Rule : Obligations.Put16Rule :=
  ⟨ofByte_byte .put16, fun s => ⟨putBytes_refused (k := 2) (s := s), putBytes_fits (k := 2) (s := s)⟩⟩

/-- Settles O36: four bytes stored one after the other. -/
theorem put32Rule : Obligations.Put32Rule :=
  ⟨ofByte_byte .put32, fun s => ⟨putBytes_refused (k := 4) (s := s), putBytes_fits (k := 4) (s := s)⟩⟩

/-! ### The GETs -/

theorem leValue_readBytes_one (m : Memory) (p : Nat) : leValue (m.readBytes p 1) = (m.readByte p).setWidth 32 := by
  simp [Memory.readBytes_succ, leValue_cons]

theorem leValue_readBytes_two (m : Memory) (p : Nat) :
    leValue (m.readBytes p 2) = (m.readByte p).setWidth 32 ||| (m.readByte (p + 1)).setWidth 32 <<< 8 := by
  simp [Memory.readBytes_succ, leValue_cons]

theorem leValue_readBytes_four (m : Memory) (p : Nat) :
    leValue (m.readBytes p 4) = (m.readByte p).setWidth 32 ||| (m.readByte (p + 1)).setWidth 32 <<< 8 |||
      (m.readByte (p + 2)).setWidth 32 <<< 16 ||| (m.readByte (p + 3)).setWidth 32 <<< 24 := by
  simp [Memory.readBytes_succ, leValue_cons, BitVec.shiftLeft_or_distrib, ← BitVec.shiftLeft_add, BitVec.or_assoc]

/-- Settles O37. -/
theorem get8Rule : Obligations.Get8Rule := by
  refine ⟨ofByte_byte .get8, fun s => ⟨getBytes_refused (k := 1) (s := s), fun hinside => ?_⟩⟩
  rw [exec_get8_shared, getBytes_inside hinside, leValue_readBytes_one]
  rfl

/-- Settles O38. -/
theorem get16Rule : Obligations.Get16Rule := by
  refine ⟨ofByte_byte .get16, fun s => ⟨getBytes_refused (k := 2) (s := s), fun hinside => ?_⟩⟩
  rw [exec_get16_shared, getBytes_inside hinside, leValue_readBytes_two]
  rfl

/-- Settles O39. -/
theorem get32Rule : Obligations.Get32Rule := by
  refine ⟨ofByte_byte .get32, fun s => ⟨getBytes_refused (k := 4) (s := s), fun hinside => ?_⟩⟩
  rw [exec_get32_shared, getBytes_inside hinside, leValue_readBytes_four]
  rfl

/-! ### What a PUT and a GET depend on (R157) -/

theorem putBytes_withVal {k : Nat} {s t : State} {v' : Word} (hlow : leBytes v' k = leBytes s.val k)
    (h : putBytes k s = .next t) : putBytes k { s with val := v' } = .next { t with val := v' } := by
  rw [putBytes_eq, Host.Outcome.next.injEq] at h
  subst h
  rw [putBytes_eq]
  dsimp only
  rw [hlow]
  split_ifs <;> rfl

/-- The checks do not look at M_DATA; past them, the bytes read lie below M_DATA_LEN. -/
theorem getBytes_withMData {k : Nat} {s t : State} {m' : Memory}
    (hsame : ∀ a, s.rpos.toNat ≤ a → a < s.rpos.toNat + k → a < s.mDataLen.toNat → m'.readByte a = s.mData.readByte a)
    (h : getBytes k s = .next t) : getBytes k { s with mData := m' } = .next { t with mData := m' } := by
  by_cases hinside : s.rpos.toNat + k ≤ min s.mDataLen.toNat 27
  · have hread : m'.readBytes s.rpos.toNat k = s.mData.readBytes s.rpos.toNat k :=
      Memory.readBytes_congr _ _ _ _ fun i hi => hsame _ (by omega) (by omega) (by omega)
    cases (getBytes_inside hinside).symm.trans h
    rw [getBytes_inside (s := { s with mData := m' }) hinside]
    dsimp only
    rw [hread]
    rfl
  · have hrefused : min s.mDataLen.toNat 27 < s.rpos.toNat + k := by omega
    cases (getBytes_refused hrefused).symm.trans h
    exact getBytes_refused (s := { s with mData := m' }) hrefused

/-- Settles O41: the bytes stored are those of the truncated value. -/
theorem marshalReadsOnlyItsOperands : Obligations.MarshalReadsOnlyItsOperands := by
  refine ⟨fun w s t v' hlow h => ?_, fun w s t m' hsame h => ?_⟩
  · rw [exec_put_shared] at h ⊢
    refine putBytes_withVal ?_ h
    rw [← leBytes_truncate w v', hlow, leBytes_truncate]
  · rw [exec_get_shared] at h ⊢
    exact getBytes_withMData hsame h

end Sys2Proof.Machine
end

section
/-! Values put, and got back (42_payload_marshal.md R158): at their own offset, and as a payload carried by the codec
(41_frame_codec.md R138). -/

namespace Sys2Proof.Machine

/-- The bytes of a value at RPOS are read as the value, truncated. -/
theorem exec_get_value {w : MarshalWidth} {v : Word} {s : State}
    (hbytes : s.mData.readBytes s.rpos.toNat w.bytes = leBytes v w.bytes)
    (hinside : s.rpos.toNat + w.bytes ≤ min s.mDataLen.toNat 27) :
    exec w.get.toInstr s =
      .next (done (s.rpos.toNat + w.bytes) (setRead (w.truncate v) (s.rpos.toNat + w.bytes) s)) := by
  rw [exec_get_shared, getBytes_inside hinside, hbytes, leValue_leBytes]

theorem readBytes_writeBytes_leBytes (m : Memory) (o k : Nat) (v : Word) :
    (m.writeBytes o (leBytes v k)).readBytes o k = leBytes v k := by
  simpa using Memory.readBytes_writeBytes_same m o (leBytes v k)

theorem toNat_ofNat_of_le_27 {n : Nat} (h : n ≤ 27) : (BitVec.ofNat 8 n).toNat = n := by
  rw [BitVec.toNat_ofNat]
  omega

/-- A host write of a byte to RPOS. -/
theorem exec_wr_rpos (b : Byte) (s : State) : exec (.wr 0x07 (b.setWidth 32)) s = .next { s with rpos := b } := by
  refine (exec_wr_reg .rpos (b.setWidth 32) s rfl).trans ?_
  simp [writeReg]

/-- Settles O42: the bytes the PUT stored are the bytes the GET reads. -/
theorem putThenGetGivesTheValueBack : Obligations.PutThenGetGivesTheValueBack := by
  intro w s hfits
  have hlen := toNat_ofNat_of_le_27 hfits
  rw [runOps_cons_next _ _ _ _ ((exec_put_shared w s).trans (putBytes_fits hfits)),
    runOps_cons_next _ _ _ _ (exec_wr_rpos _ _), runOps_single]
  refine ⟨_, exec_get_value (v := s.val) ?_ ?_, rfl, rfl, rfl, rfl⟩
  · exact readBytes_writeBytes_leBytes _ _ _ _
  · simp only [done_mDataLen, setDataLen_mDataLen, hlen]
    omega

/-! ### Field by field -/

/-- The payload that the PUTs of these fields build: each value's low bytes, in order (R152). -/
def fieldsPayload (fields : List (MarshalWidth × Word)) : List Byte := fields.flatMap fun p => leBytes p.2 p.1.bytes

@[simp] theorem fieldsPayload_nil : fieldsPayload [] = [] := rfl

theorem fieldsPayload_cons (w : MarshalWidth) (v : Word) (rest : List (MarshalWidth × Word)) :
    fieldsPayload ((w, v) :: rest) = leBytes v w.bytes ++ fieldsPayload rest := rfl

theorem fieldsPayload_length_cons (w : MarshalWidth) (v : Word) (rest : List (MarshalWidth × Word)) :
    (fieldsPayload ((w, v) :: rest)).length = w.bytes + (fieldsPayload rest).length := by
  rw [fieldsPayload_cons, List.length_append, leBytes_length]

theorem fieldsPayload_length (fields : List (MarshalWidth × Word)) :
    (fieldsPayload fields).length = (fields.map fun p => p.1.bytes).sum := by
  simp [fieldsPayload, List.length_flatMap]

theorem runOps_putValueOps (w : MarshalWidth) (v : Word) {s : State} (hfits : s.mDataLen.toNat + w.bytes ≤ 27) :
    runOps (putValueOps w.put v) s = .next (done (s.mDataLen.toNat + w.bytes) (setDataLen (s.mDataLen.toNat + w.bytes)
      { s with val := v, mData := s.mData.writeBytes s.mDataLen.toNat (leBytes v w.bytes) })) := by
  have hval : exec (.wr 0x08 v) s = .next { s with val := v } := exec_wr_reg .val v s rfl
  rw [putValueOps, runOps_cons_next _ _ _ _ hval, runOps_single, exec_put_shared]
  exact putBytes_fits (s := { s with val := v }) hfits

/-- PUTs of fields that fit store their payload at M_DATA_LEN, and the host is returned nothing. -/
theorem runOps_puts (fields : List (MarshalWidth × Word)) (s : State)
    (hfits : s.mDataLen.toNat + (fieldsPayload fields).length ≤ 27) :
    ∃ t, runOps (fields.flatMap fun p => putValueOps p.1.put p.2) s = .next t ∧
      t.mDataLen.toNat = s.mDataLen.toNat + (fieldsPayload fields).length ∧
      t.mData = s.mData.writeBytes s.mDataLen.toNat (fieldsPayload fields) ∧ t.rdLog = s.rdLog := by
  induction fields generalizing s with
  | nil => exact ⟨s, rfl, rfl, rfl, rfl⟩
  | cons p rest ih =>
    obtain ⟨w, v⟩ := p
    rw [fieldsPayload_length_cons] at hfits
    have hput := runOps_putValueOps w v (s := s) (by omega)
    generalize hu : done _ _ = u at hput
    have hlen : u.mDataLen.toNat = s.mDataLen.toNat + w.bytes := by
      rw [← hu]
      exact toNat_ofNat_of_le_27 (by omega)
    have hdata : u.mData = s.mData.writeBytes s.mDataLen.toNat (leBytes v w.bytes) := by rw [← hu]; rfl
    have hlog : u.rdLog = s.rdLog := by rw [← hu]; rfl
    obtain ⟨t, ht, htlen, htdata, htlog⟩ := ih u (by omega)
    refine ⟨t, ?_, ?_, ?_, htlog.trans hlog⟩
    · rw [List.flatMap_cons, runOps_append_next _ _ _ _ hput, ht]
    · rw [htlen, hlen, fieldsPayload_length_cons, Nat.add_assoc]
    · rw [htdata, hdata, hlen, fieldsPayload_cons, Memory.writeBytes_append, leBytes_length]

/-- The host operations of R152 leave the payload in M_DATA, and its length in M_DATA_LEN. -/
theorem runOps_buildOps (fields : List (MarshalWidth × Word)) (s : State) (hfits : (fieldsPayload fields).length ≤ 27) :
    ∃ t, runOps (buildOps fields) s = .next t ∧ t.mDataLen.toNat = (fieldsPayload fields).length ∧
      t.mData.readBytes 0 (fieldsPayload fields).length = fieldsPayload fields ∧ t.rdLog = s.rdLog := by
  have hstart : exec (.wr 0x12 0) s = .next { s with mDataLen := 0 } := exec_wr_reg .mDataLen 0 s rfl
  obtain ⟨t, ht, hlen, hdata, hlog⟩ := runOps_puts fields { s with mDataLen := 0 } (by simpa using hfits)
  refine ⟨t, ?_, by simpa using hlen, ?_, hlog⟩
  · rw [buildOps, runOps_cons_next _ _ _ _ hstart, ht]
  · rw [hdata]
    exact Memory.readBytes_writeBytes_same _ _ _

/-- One field read: a GET, and VAL returned to the host. -/
theorem runOps_getValue {w : MarshalWidth} {v : Word} {s : State}
    (hbytes : s.mData.readBytes s.rpos.toNat w.bytes = leBytes v w.bytes)
    (hinside : s.rpos.toNat + w.bytes ≤ min s.mDataLen.toNat 27) :
    runOps [w.get.toInstr, .rd 0x08] s = .next (returnToHost (w.truncate v)
      (done (s.rpos.toNat + w.bytes) (setRead (w.truncate v) (s.rpos.toNat + w.bytes) s))) := by
  rw [runOps_cons_next _ _ _ _ (exec_get_value hbytes hinside), runOps_single]
  rfl

/-- GETs of fields whose payload stands at RPOS return their values, truncated, one after the other. -/
theorem runOps_gets (fields : List (MarshalWidth × Word)) (s : State)
    (hbytes : s.mData.readBytes s.rpos.toNat (fieldsPayload fields).length = fieldsPayload fields)
    (hinside : s.rpos.toNat + (fieldsPayload fields).length ≤ min s.mDataLen.toNat 27) (hok : s.status = 0x00) :
    ∃ t, runOps (fields.flatMap fun p => [p.1.get.toInstr, .rd 0x08]) s = .next t ∧ t.status = 0x00 ∧
      t.rdLog = s.rdLog ++ fields.map fun p => p.1.truncate p.2 := by
  induction fields generalizing s with
  | nil => exact ⟨s, rfl, hok, by simp⟩
  | cons p rest ih =>
    obtain ⟨w, v⟩ := p
    rw [fieldsPayload_length_cons] at hbytes hinside
    rw [Memory.readBytes_append, fieldsPayload_cons] at hbytes
    obtain ⟨hfirst, hrest⟩ := List.append_inj hbytes (by simp)
    have hget := runOps_getValue hfirst (by omega)
    generalize hu : returnToHost _ _ = u at hget
    have hrpos : u.rpos.toNat = s.rpos.toNat + w.bytes := by
      rw [← hu]
      exact toNat_ofNat_of_le_27 (by omega)
    have hdata : u.mData = s.mData := by rw [← hu]; rfl
    have hlen : u.mDataLen = s.mDataLen := by rw [← hu]; rfl
    have hlog : u.rdLog = s.rdLog ++ [w.truncate v] := by rw [← hu]; rfl
    obtain ⟨t, ht, htok, htlog⟩ := ih u (by rw [hdata, hrpos, hrest]) (by rw [hrpos, hlen]; omega) (by rw [← hu]; rfl)
    refine ⟨t, ?_, htok, ?_⟩
    · rw [List.flatMap_cons, runOps_append_next _ _ _ _ hget, ht]
    · rw [htlog, hlog, List.append_assoc]
      rfl

/-! ### Across the codec -/

/-- The capacity of a whole frame buffer, ENCODE and DECODE: the message comes back (R138), nothing is returned. -/
theorem runOps_encode_decode (s : State) (hlen : s.mDataLen.toNat ≤ 27) :
    ∃ t, runOps [.wr 0x04 31, .encode, .decode] s = .next t ∧ t.status = 0x00 ∧ messageOf t = messageOf s ∧
      t.rdLog = s.rdLog := by
  have hcap : exec (.wr 0x04 31) s = .next { s with cap := 31 } := exec_wr_reg .cap 31 s rfl
  obtain ⟨t, u, hencode, hdecode, -, hok, hmessage, -⟩ := encodeThenDecodeGivesTheMessageBack { s with cap := 31 }
    .decode (.inl rfl) hlen (show 4 + s.mDataLen.toNat ≤ 31 by omega) (le_refl 31)
  have htlog : t.rdLog = s.rdLog := (exec_command_sameHostRegisters (c := .encode) hencode).rdLog
  have hulog : u.rdLog = t.rdLog := (exec_command_sameHostRegisters (c := .decode) hdecode).rdLog
  refine ⟨u, ?_, hok, hmessage, hulog.trans htlog⟩
  rw [runOps_cons_next _ _ _ _ hcap, runOps_cons_next _ _ _ _ hencode, runOps_single, hdecode]

/-- Settles O43: the payload is in M_DATA when it is built, and again when the frame is decoded. -/
theorem marshalAcrossTheCodec : Obligations.MarshalAcrossTheCodec := by
  intro fields s hfits
  rw [← fieldsPayload_length] at hfits
  obtain ⟨a, hbuild, halen, hadata, halog⟩ := runOps_buildOps fields s hfits
  obtain ⟨b, hcodec, hbok, hmessage, hblog⟩ := runOps_encode_decode a (by omega)
  obtain ⟨-, -, hblen, hbpayload⟩ : _ ∧ _ ∧ b.mDataLen = a.mDataLen ∧
      b.mData.readBytes 0 b.mDataLen.toNat = a.mData.readBytes 0 a.mDataLen.toNat := by
    simpa only [messageOf, Prod.mk.injEq] using hmessage
  rw [hblen, halen, hadata] at hbpayload
  have hstart : exec (.wr 0x07 0) b = .next { b with rpos := 0 } := exec_wr_reg .rpos 0 b rfl
  have hinside : 0 + (fieldsPayload fields).length ≤ min b.mDataLen.toNat 27 := by
    rw [hblen, halen]
    omega
  obtain ⟨t, hgets, htok, htlog⟩ := runOps_gets fields { b with rpos := 0 } hbpayload hinside hbok
  refine ⟨t, ?_, htok, by rw [htlog]; simp only [hblog, halog]⟩
  rw [List.append_assoc, runOps_append_next _ _ _ _ hbuild, runOps_append_next _ _ _ _ hcodec, takeApartOps,
    runOps_cons_next _ _ _ _ hstart, hgets]

end Sys2Proof.Machine
end

section
/-! The host port by register number (43_host_port.md R170 to R173): the numbers no register has, what a read of each
register answers, and what a write to each stores. -/

namespace Sys2Proof.Machine

/-! ### The reserved numbers (10_state.md R33) -/

/-- The ranges that R33 writes out hold no register of R22. -/
theorem not_reservedNumber_regNumber (r : Reg) : ¬ ReservedNumber (regNumber r) := by
  cases r with
  | mData i =>
    rw [regNumber, ReservedNumber]
    bv_omega
  | fb j =>
    rw [regNumber, ReservedNumber]
    bv_omega
  | _ => decide

theorem regOfNumber_of_reserved {n : Byte} (h : ReservedNumber n) : regOfNumber n = none := by
  cases hn : regOfNumber n with
  | none => rfl
  | some r =>
    rw [← regNumber_of_regOfNumber n r hn] at h
    exact absurd h (not_reservedNumber_regNumber r)

/-! ### Reads (R170) -/

theorem exec_rd_reg (r : Reg) (s : State) :
    exec (.rd (regNumber r)) s = .next { s with rdLog := s.rdLog ++ [readReg s r] } := by
  rw [← readNumber_regNumber]
  exact execRd_eq (regNumber r) s

theorem exec_rd_reserved {n : Byte} (h : ReservedNumber n) (s : State) :
    exec (.rd n) s = .next { s with rdLog := s.rdLog ++ [0] } := by
  have hzero : readNumber s n = 0 := by rw [readNumber, regOfNumber_of_reserved h]
  rw [← hzero]
  exact execRd_eq n s

/-- The one-bit register shows as 0 or 1. -/
theorem readReg_lastCrcOk (s : State) : readReg s .lastCrcOk = if s.lastCrcOk = true then 1 else 0 := by
  rw [readReg]
  cases s.lastCrcOk with
  | false => rfl
  | true => rfl

/-- Settles O14: each number is a register's number, whose value `readReg` says, or a reserved one. -/
theorem readRule : Obligations.ReadRule := by
  intro s
  refine ⟨exec_rd_reg .cmd s, exec_rd_reg .status s, exec_rd_reg .result s, exec_rd_reg .len s, exec_rd_reg .cap s,
    exec_rd_reg .rangeOff s, exec_rd_reg .rangeLen s, exec_rd_reg .rpos s, exec_rd_reg .val s,
    exec_rd_reg .crcErrorCount s, ?_, exec_rd_reg .mTypeId s, exec_rd_reg .mOpcode s, exec_rd_reg .mDataLen s,
    exec_rd_reg .mCrc s, exec_rd_reg .mSrcAddr s, fun i hi => exec_rd_reg (.mData ⟨i, hi⟩) s,
    fun j hj => exec_rd_reg (.fb ⟨j, hj⟩) s, fun n hn => exec_rd_reserved hn s⟩
  rw [← readReg_lastCrcOk]
  exact exec_rd_reg .lastCrcOk s

/-! ### Writes (R171 to R173) -/

theorem Memory.readByte_writeByte (m : Memory) (i : Nat) (b : Byte) (a : Nat) :
    (m.writeByte i b).readByte a = if a = i then b else m.readByte a := by
  split_ifs with h
  · rw [h, Memory.readByte_writeByte_same]
  · exact Memory.readByte_writeByte_ne m i a b h

theorem exec_wr_readOnly (r : Reg) (v : Word) (s : State) (h : regAccess r = .ro) :
    exec (.wr (regNumber r) v) s = .next s := execWr_ro r v s h

theorem exec_wr_reserved {n : Byte} (h : ReservedNumber n) (v : Word) (s : State) : exec (.wr n v) s = .next s :=
  execWr_reserved n v s (regOfNumber_of_reserved h)

/-- A reserved command byte ends in the one error that R79 gives it. -/
theorem exec_wr_reservedCommand {v : Word} (h : ReservedCommandByte (commandByte v)) (s : State) :
    exec (.wr 0x00 v) s = .next (raise .invalidArgument s) := by
  rw [exec_wr, execWr_cmd, runCommandByte_reserved _ s ((ofByte_eq_none_iff_reserved _).mpr h)]

/-- Settles O15: the access of the register a number names decides the write; at CMD, the command map does. -/
theorem writeRule : Obligations.WriteRule := by
  intro s v
  refine ⟨exec_wr_reg .len v s rfl, exec_wr_reg .cap v s rfl, exec_wr_reg .rangeOff v s rfl,
    exec_wr_reg .rangeLen v s rfl, exec_wr_reg .rpos v s rfl, exec_wr_reg .val v s rfl, exec_wr_reg .mTypeId v s rfl,
    exec_wr_reg .mOpcode v s rfl, exec_wr_reg .mDataLen v s rfl, exec_wr_reg .mCrc v s rfl,
    exec_wr_reg .mSrcAddr v s rfl,
    fun i hi => ⟨_, exec_wr_reg (.mData ⟨i, hi⟩) v s rfl, Memory.readByte_writeByte s.mData i _⟩,
    fun j hj => ⟨_, exec_wr_reg (.fb ⟨j, hj⟩) v s rfl, Memory.readByte_writeByte s.fb j _⟩, ?_,
    fun n hn => exec_wr_reserved hn v s, fun c hc => exec_issued (.inr ⟨v, rfl, hc⟩) s,
    fun hreserved => exec_wr_reservedCommand hreserved s⟩
  simp only [List.forall_mem_cons, List.not_mem_nil, false_imp_iff, implies_true, and_true]
  exact ⟨exec_wr_readOnly .status v s rfl, exec_wr_readOnly .result v s rfl, exec_wr_readOnly .crcErrorCount v s rfl,
    exec_wr_readOnly .lastCrcOk v s rfl⟩

end Sys2Proof.Machine
end

section
/-! A received frame in FB (44_environment.md R186, R193): the frame buffer after the host has placed it, the verdict of
its decode, and the message it decodes to. -/

namespace Sys2Proof.Machine

/-- `s` with a received frame placed by the host: its first 31 bytes in FB, their number in LEN. -/
def withReceivedFrame (frame : List Byte) (s : State) : State :=
  { s with fb := s.fb.writeBytes 0 (frame.take 31), len := BitVec.ofNat 8 (min frame.length 31) }

/-- A frame is valid where each check of R135 passes, that of the CRC included. -/
theorem validFrame_iff (f : List Byte → Byte) (frame : List Byte) :
    validFrame f frame = true ↔
      4 ≤ frame.length ∧ frame.length ≤ 31 ∧ 4 + (frame.getD 2 0).toNat ≤ frame.length ∧
        f (frame.take (3 + (frame.getD 2 0).toNat)) = frame.getD (3 + (frame.getD 2 0).toNat) 0 := by
  simp only [validFrame, Bool.and_eq_true, decide_eq_true_eq, beq_iff_eq, and_assoc]

/-! ### The frame buffer -/

section
variable {frame : List Byte} (s : State) (hfit : frame.length ≤ 31)
include hfit

theorem withReceivedFrame_len_toNat : (withReceivedFrame frame s).len.toNat = frame.length := by
  refine (BitVec.toNat_ofNat _ _).trans ?_
  omega

theorem withReceivedFrame_readByte {a : Nat} (ha : a < frame.length) :
    (withReceivedFrame frame s).fb.readByte a = frame.getD a 0 := by
  refine (Memory.readByte_writeBytes s.fb 0 _ a).trans ?_
  rw [dif_pos (by rw [List.length_take]; omega), List.getD_eq_getElem _ _ ha, List.getElem_take]
  rfl

theorem withReceivedFrame_readBytes {o k : Nat} (hk : o + k ≤ frame.length) :
    (withReceivedFrame frame s).fb.readBytes o k = (frame.drop o).take k := by
  refine List.ext_getElem (by simp; omega) fun i hi _ => ?_
  rw [Memory.readBytes_length] at hi
  rw [Memory.getElem_readBytes, withReceivedFrame_readByte s hfit (by omega), List.getD_eq_getElem _ _ (by omega),
    List.getElem_take, List.getElem_drop]

end

/-! ### The verdict (R135) -/

theorem code_eq_zero_iff {e : Status} : e.code = 0x00 ↔ e = .ok :=
  ⟨eq_ok_of_code_eq_zero, fun h => h ▸ rfl⟩

theorem decodeVerdict_ok_iff (s : State) :
    decodeVerdict s = .ok ↔
      4 ≤ s.len.toNat ∧ s.len.toNat ≤ 31 ∧ 4 + (s.fb.readByte 2).toNat ≤ s.len.toNat ∧
        crc8 s.cfg (s.fb.readBytes 0 (3 + (s.fb.readByte 2).toNat)) = s.fb.readByte (3 + (s.fb.readByte 2).toNat) := by
  rw [← decodeFrame_ok_iff (decodeFrame_eq_decodeEnd false s), decodeEnd_status, code_eq_zero_iff]

/-- A buffer that FB can hold fails a decode by its length, its `data_len` or its CRC. -/
theorem decodeVerdict_code_of_error {s : State} (hmax : s.len.toNat ≤ 31) (herr : decodeVerdict s ≠ .ok) :
    (decodeVerdict s).code ∈ [0x04, 0x05, 0x06] := by
  revert herr
  unfold decodeVerdict
  split_ifs with hlong
  · omega
  · decide
  · decide
  · decide
  · exact fun herr => absurd rfl herr

/-- The decode of a received frame succeeds exactly where the frame is valid (30_encoding.md R72, R73). -/
theorem decodeVerdict_withReceivedFrame {frame : List Byte} (s : State) (hfit : frame.length ≤ 31) :
    decodeVerdict (withReceivedFrame frame s) = .ok ↔ validFrame (crc8 s.cfg) frame = true := by
  rw [decodeVerdict_ok_iff, validFrame_iff, withReceivedFrame_len_toNat s hfit]
  refine and_congr_right fun hmin => and_congr_right fun _ => ?_
  rw [withReceivedFrame_readByte s hfit (by omega)]
  refine and_congr_right fun hlen => ?_
  rw [withReceivedFrame_readByte s hfit (by omega), withReceivedFrame_readBytes s hfit (by omega), List.drop_zero]
  rfl

/-! ### The decoded message (R136) -/

theorem decodedMessage_decodeEnd_ok (ctx : Bool) (s : State) :
    decodedMessage (decodeEnd ctx s .ok) =
      { typeId := s.fb.readByte 0, opcode := s.fb.readByte 1, dataLen := s.fb.readByte 2
        payload := s.fb.readBytes 3 (s.fb.readByte 2).toNat
        crc := s.fb.readByte (3 + (s.fb.readByte 2).toNat), sourceAddress := s.mSrcAddr } := by
  have hmessage := (messageOf_decodeEnd_ok ctx s).trans (messageOf_withDecodedMessage s)
  simp only [messageOf, Prod.mk.injEq] at hmessage
  obtain ⟨htype, hopcode, hlen, hpayload⟩ := hmessage
  have hsource : (decodeEnd ctx s .ok).mSrcAddr = s.mSrcAddr := by
    cases ctx with
    | _ => rfl
  rw [decodedMessage, decodedPayload, hpayload, htype, hopcode, hlen, mCrc_decodeEnd_ok, hsource]

theorem decodedMessage_of_validFrame {frame : List Byte} (ctx : Bool) (s : State)
    (hvalid : validFrame (crc8 s.cfg) frame = true) :
    decodedMessage (decodeEnd ctx (withReceivedFrame frame s) .ok) = frameMessage s.mSrcAddr frame := by
  obtain ⟨hmin, hfit, hlen, -⟩ := (validFrame_iff _ _).mp hvalid
  have hread {a : Nat} (ha : a < frame.length) := withReceivedFrame_readByte s hfit ha
  rw [decodedMessage_decodeEnd_ok, hread (by omega), hread (by omega), hread (by omega), hread (by omega),
    withReceivedFrame_readBytes s hfit (by omega)]
  rfl

end Sys2Proof.Machine
end

section
/-! The receive path (44_environment.md R186 to R189): which frames reach a callback, and what a SET_REPLY does. -/

namespace Sys2Proof.Machine

/-! ### `handle_receive`, by the verdict of its DECODE.C (R186) -/

theorem handleReceive_controller {ctx : Context} (hrole : ctx.role = .controller) (frame : List Byte) (s : State) :
    handleReceive ctx frame s = .next { context := ctx, engine := s, result := 0x07, calls := [] } := by
  rw [handleReceive, hrole]
  rfl

section
variable {ctx : Context} (hrole : ctx.role = .peripheral)
include hrole

theorem handleReceive_peripheral (frame : List Byte) (s : State) :
    handleReceive ctx frame s =
      let u := withReceivedFrame frame s
      let t := decodeEnd true u (decodeVerdict u)
      if decodeVerdict u = .ok then receiveMessage ctx t
      else .next { context := ctx, engine := t, result := (decodeVerdict u).code, calls := [] } := by
  rw [handleReceive, hrole]
  dsimp only
  rw [runOps_receiveOps, decodeFrame_eq_decodeEnd, andThen_next, decodeEnd_status, code_ok]
  simp only [code_eq_zero_iff]
  rfl

theorem handleReceive_valid {frame : List Byte} {s : State} (hvalid : validFrame (crc8 s.cfg) frame = true) :
    handleReceive ctx frame s = receiveMessage ctx (decodeEnd true (withReceivedFrame frame s) .ok) := by
  obtain ⟨-, hfit, -⟩ := (validFrame_iff _ _).mp hvalid
  have hok := (decodeVerdict_withReceivedFrame s hfit).mpr hvalid
  rw [handleReceive_peripheral hrole]
  dsimp only
  rw [if_pos hok, hok]

end

/-- Settles O53: what a decode of at most 31 bytes raises is one of those three errors, and it ends the call. -/
theorem invalidFrameCallsNothing : Obligations.InvalidFrameCallsNothing := by
  intro ctx frame s hrole hfit hinvalid
  have herr : decodeVerdict (withReceivedFrame frame s) ≠ .ok := fun hok =>
    absurd ((decodeVerdict_withReceivedFrame s hfit).mp hok) (by rw [hinvalid]; decide)
  have hmax : (withReceivedFrame frame s).len.toNat ≤ 31 := (withReceivedFrame_len_toNat s hfit).trans_le hfit
  exact ⟨_, (handleReceive_peripheral hrole frame s).trans (if_neg herr), decodeVerdict_code_of_error hmax herr,
    rfl, rfl⟩

/-! ### SET_REPLY (R187) -/

theorem receiveMessage_setReply (ctx : Context) {s : State} (hop : s.mOpcode = 0xFE) :
    receiveMessage ctx s = .next {
      context := if s.mDataLen = 0x00 then ctx else { ctx with requestedOpcode := s.mData.readByte 0 }
      engine := s, result := 0x00, calls := [] } := by
  rw [receiveMessage, if_pos hop]
  rfl

/-- The first payload byte, where there is one, is the frame's byte 3. -/
theorem readByte_zero_of_decodedPayload {s : State} {frame : List Byte} (hlen : s.mDataLen ≠ 0x00)
    (hpayload : decodedPayload s = (frame.drop 3).take s.mDataLen.toNat) : s.mData.readByte 0 = frame.getD 3 0 := by
  have hpos : 0 < s.mDataLen.toNat := by
    rw [Nat.pos_iff_ne_zero]
    exact fun h => hlen (BitVec.eq_of_toNat_eq h)
  have hhead := congrArg (fun bs => bs.getD 0 0) hpayload
  simpa [decodedPayload, Memory.readBytes, List.getD_eq_getElem?_getD, hpos, List.getElem?_take_of_lt] using hhead

/-- Settles O51. -/
theorem setReplyIsInterceptedSilently : Obligations.SetReplyIsInterceptedSilently := by
  intro ctx frame s hrole hvalid hopcode
  have hmessage := decodedMessage_of_validFrame true s hvalid
  have hop : (decodeEnd true (withReceivedFrame frame s) .ok).mOpcode = frame.getD 1 0 :=
    congrArg DecodedMessage.opcode hmessage
  have hlen : (decodeEnd true (withReceivedFrame frame s) .ok).mDataLen = frame.getD 2 0 :=
    congrArg DecodedMessage.dataLen hmessage
  have hpayload : decodedPayload (decodeEnd true (withReceivedFrame frame s) .ok) = framePayload frame :=
    congrArg DecodedMessage.payload hmessage
  refine ⟨_, (handleReceive_valid hrole hvalid).trans (receiveMessage_setReply ctx (hop.trans hopcode)), rfl, rfl, ?_⟩
  dsimp only
  rw [hlen]
  split_ifs with hempty
  · rfl
  · rw [readByte_zero_of_decodedPayload (hlen.trans_ne hempty) (by rw [hpayload, hlen]; rfl)]

/-! ### Any other message (R188) -/

theorem exec_wr_mSrcAddr (b : Byte) (s : State) :
    exec (.wr 0x14 (b.setWidth 32)) s = .next { s with mSrcAddr := b } := by
  refine (exec_wr_reg .mSrcAddr (b.setWidth 32) s rfl).trans ?_
  simp [writeReg]

theorem receiveMessage_dispatch (ctx : Context) {s : State} (hop : s.mOpcode ≠ 0xFE) :
    receiveMessage ctx s = .next {
      context := ctx, engine := { s with mSrcAddr := ctx.address }, result := 0x00
      calls := dispatchCalls ctx { s with mSrcAddr := ctx.address } } := by
  rw [receiveMessage, if_neg hop, exec_wr_mSrcAddr, andThen_next]
  rfl

/-- The calls depend on the message that software sees, and on nothing else of the engine. -/
theorem dispatchCalls_of_decodedMessage (ctx : Context) {s : State} {m : DecodedMessage} (h : decodedMessage s = m) :
    dispatchCalls ctx s =
      (match ctx.onReceive with
        | some cb => [Call.generic cb m]
        | none => []) ++
      (match findHandler ctx m.opcode with
        | some e => [Call.handler e.callback m.opcode m.payload m.dataLen.toNat e.userData]
        | none => []) := by
  subst h
  rfl

/-- Settles O52: after the write to M_SRC_ADDR the message software sees is the frame's. -/
theorem ordinaryFrameIsDispatched : Obligations.OrdinaryFrameIsDispatched := by
  intro ctx frame s hrole hvalid hopcode
  have hmessage := decodedMessage_of_validFrame true s hvalid
  have hop : (decodeEnd true (withReceivedFrame frame s) .ok).mOpcode ≠ 0xFE :=
    (congrArg DecodedMessage.opcode hmessage).trans_ne hopcode
  have hsent : decodedMessage { decodeEnd true (withReceivedFrame frame s) .ok with mSrcAddr := ctx.address } =
      frameMessage ctx.address frame :=
    congrArg (fun m : DecodedMessage => { m with sourceAddress := ctx.address }) hmessage
  exact ⟨_, (handleReceive_valid hrole hvalid).trans (receiveMessage_dispatch ctx hop), rfl, rfl, rfl,
    dispatchCalls_of_decodedMessage ctx hsent⟩

end Sys2Proof.Machine
end

section
/-! The handler table (44_environment.md R183 to R185): which entry an opcode finds after each operation on the table. -/

namespace Sys2Proof.Machine

theorem findHandler_ne_none_iff (ctx : Context) (o : Byte) :
    findHandler ctx o ≠ none ↔ ctx.handlers.any (fun h => h.opcode == o) = true := by
  rw [findHandler, ← Option.isSome_iff_ne_none, List.find?_isSome, List.any_eq_true]

theorem findHandler_eq_none_iff (ctx : Context) (o : Byte) :
    findHandler ctx o = none ↔ ctx.handlers.any (fun h => h.opcode == o) = false := by
  rw [← not_iff_not, ← ne_eq, findHandler_ne_none_iff, Bool.not_eq_false]

theorem opcode_of_findHandler {ctx : Context} {o : Byte} {h : HandlerEntry} (hfind : findHandler ctx o = some h) :
    h.opcode = o :=
  beq_iff_eq.mp (List.find?_some (p := fun h : HandlerEntry => h.opcode == o) hfind)

/-! ### Registering (R184) -/

/-- `ctx` with the entry `e` in place of each entry of its opcode. -/
def withOverwritten (ctx : Context) (e : HandlerEntry) : Context :=
  { ctx with handlers := ctx.handlers.map (fun h => if h.opcode = e.opcode then e else h) }

/-- `ctx` with the entry `e` in a new slot. -/
def withAppended (ctx : Context) (e : HandlerEntry) : Context :=
  { ctx with handlers := ctx.handlers ++ [e] }

section
variable (ctx : Context) (e : HandlerEntry)

/-- Overwriting changes no opcode, so each search ends at the slot where it ended before. -/
theorem findHandler_withOverwritten (o : Byte) :
    findHandler (withOverwritten ctx e) o =
      (findHandler ctx o).map (fun h => if h.opcode = e.opcode then e else h) := by
  have hkey (h : HandlerEntry) : (if h.opcode = e.opcode then e else h).opcode = h.opcode := by
    split_ifs with heq
    · exact heq.symm
    · rfl
  refine List.find?_map.trans ?_
  simp only [Function.comp_def, hkey]
  rfl

theorem findHandler_withOverwritten_same (hentry : findHandler ctx e.opcode ≠ none) :
    findHandler (withOverwritten ctx e) e.opcode = some e := by
  obtain ⟨h, hfind⟩ := Option.ne_none_iff_exists'.mp hentry
  rw [findHandler_withOverwritten, hfind, Option.map_some, if_pos (opcode_of_findHandler hfind)]

theorem findHandler_withOverwritten_ne {o : Byte} (hne : o ≠ e.opcode) :
    findHandler (withOverwritten ctx e) o = findHandler ctx o := by
  rw [findHandler_withOverwritten]
  cases hfind : findHandler ctx o with
  | none => rfl
  | some h => rw [Option.map_some, if_neg ((opcode_of_findHandler hfind).trans_ne hne)]

theorem findHandler_withAppended (o : Byte) :
    findHandler (withAppended ctx e) o = (findHandler ctx o).or (if e.opcode = o then some e else none) := by
  refine List.find?_append.trans ?_
  rw [List.find?_singleton]
  simp only [beq_iff_eq]
  rfl

theorem findHandler_withAppended_same (hfree : findHandler ctx e.opcode = none) :
    findHandler (withAppended ctx e) e.opcode = some e := by
  rw [findHandler_withAppended, hfree, if_pos rfl, Option.none_or]

theorem findHandler_withAppended_ne {o : Byte} (hne : o ≠ e.opcode) :
    findHandler (withAppended ctx e) o = findHandler ctx o := by
  rw [findHandler_withAppended, if_neg hne.symm, Option.or_none]

/-- Registering by what the table holds: the entry overwritten, a free slot taken, or the table full. -/
theorem registerHandler_by_entry (slots : Nat) :
    (findHandler ctx e.opcode ≠ none ∧ registerHandler slots ctx e = .ok (withOverwritten ctx e)) ∨
    (findHandler ctx e.opcode = none ∧ ctx.handlers.length < slots ∧
      registerHandler slots ctx e = .ok (withAppended ctx e)) ∨
    (findHandler ctx e.opcode = none ∧ slots ≤ ctx.handlers.length ∧
      registerHandler slots ctx e = .error .handlerTableFull) := by
  rw [findHandler_ne_none_iff, findHandler_eq_none_iff]
  exact registerHandler_cases slots ctx e

variable {ctx e} {slots : Nat}

theorem findHandler_of_registerHandler {ctx' : Context} (hreg : registerHandler slots ctx e = .ok ctx') :
    findHandler ctx' e.opcode = some e ∧ ∀ o, o ≠ e.opcode → findHandler ctx' o = findHandler ctx o := by
  obtain ⟨hentry, heq⟩ | ⟨hnone, -, heq⟩ | ⟨-, -, heq⟩ := registerHandler_by_entry ctx e slots
  · obtain rfl := Except.ok.inj (heq.symm.trans hreg)
    exact ⟨findHandler_withOverwritten_same ctx e hentry, fun _ => findHandler_withOverwritten_ne ctx e⟩
  · obtain rfl := Except.ok.inj (heq.symm.trans hreg)
    exact ⟨findHandler_withAppended_same ctx e hnone, fun _ => findHandler_withAppended_ne ctx e⟩
  · exact nomatch heq.symm.trans hreg

theorem registerHandler_ok_iff :
    (∃ ctx', registerHandler slots ctx e = .ok ctx') ↔
      findHandler ctx e.opcode ≠ none ∨ ctx.handlers.length < slots := by
  obtain ⟨hentry, heq⟩ | ⟨-, hfree, heq⟩ | ⟨hnone, hfull, heq⟩ := registerHandler_by_entry ctx e slots
  · exact iff_of_true ⟨_, heq⟩ (.inl hentry)
  · exact iff_of_true ⟨_, heq⟩ (.inr hfree)
  · rw [heq]
    exact iff_of_false nofun (not_or.mpr ⟨not_not.mpr hnone, Nat.not_lt.mpr hfull⟩)

theorem registerHandler_full_iff :
    registerHandler slots ctx e = .error .handlerTableFull ↔
      findHandler ctx e.opcode = none ∧ slots ≤ ctx.handlers.length := by
  obtain ⟨hentry, heq⟩ | ⟨-, hfree, heq⟩ | ⟨hnone, hfull, heq⟩ := registerHandler_by_entry ctx e slots
  · rw [heq]
    exact iff_of_false nofun fun ⟨hnone, _⟩ => hentry hnone
  · rw [heq]
    exact iff_of_false nofun fun ⟨_, hfull⟩ => absurd hfree (Nat.not_lt.mpr hfull)
  · exact iff_of_true heq ⟨hnone, hfull⟩

end

/-! ### Unregistering (R185) -/

theorem findHandler_unregister_same (ctx : Context) (o : Byte) : findHandler (unregisterHandler ctx o) o = none := by
  simp [findHandler, unregisterHandler]

theorem findHandler_unregister_ne (ctx : Context) {o o' : Byte} (hne : o' ≠ o) :
    findHandler (unregisterHandler ctx o) o' = findHandler ctx o' := by
  have hkept (h : HandlerEntry) : decide ((h.opcode != o) = true ∧ (h.opcode == o') = true) = (h.opcode == o') := by
    by_cases heq : h.opcode = o'
    · simp [heq, hne]
    · simp [heq]
  refine List.find?_filter.trans ?_
  simp only [hkept]
  rfl

theorem unregisterHandler_of_no_entry {ctx : Context} {o : Byte} (hnone : findHandler ctx o = none) :
    unregisterHandler ctx o = ctx := by
  have hall : ctx.handlers.filter (fun h => h.opcode != o) = ctx.handlers := by
    rw [List.filter_eq_self]
    intro h hmem
    simpa using List.find?_eq_none.mp hnone h hmem
  rw [unregisterHandler, hall]

/-- Settles O54. -/
theorem registerLastWriteWins : Obligations.RegisterLastWriteWins := fun _ ctx e =>
  ⟨fun _ => findHandler_of_registerHandler, registerHandler_ok_iff, registerHandler_full_iff,
    findHandler_unregister_same ctx e.opcode, fun _ => findHandler_unregister_ne ctx, unregisterHandler_of_no_entry⟩

end Sys2Proof.Machine
end

section
/-! The reply path (44_environment.md R190 to R192): `build_reply` is one ENCODE of the callback's message, and the
engine it leaves answers the same again. -/

namespace Sys2Proof.Machine

/-! ### `build_reply`, by role and callback -/

theorem buildReply_controller {ctx : Context} (hrole : ctx.role = .controller) (reply : Byte → Message)
    (capacity : Byte) (s : State) :
    buildReply ctx reply capacity s = .next { engine := s, result := 0x07, frame := [] } := by
  rw [buildReply, hrole]
  rfl

theorem buildReply_no_callback {ctx : Context} (hrole : ctx.role = .peripheral) (hrequest : ctx.onRequest = false)
    (reply : Byte → Message) (capacity : Byte) (s : State) :
    buildReply ctx reply capacity s = .next { engine := s, result := 0x00, frame := [] } := by
  rw [buildReply, hrole, hrequest]
  rfl

/-- Settles O50. -/
theorem controllerRoleHasNoSideEffects : Obligations.ControllerRoleHasNoSideEffects :=
  fun _ frame reply capacity s hrole =>
    ⟨handleReceive_controller hrole frame s, buildReply_controller hrole reply capacity s⟩

/-- `s` with the callback's message in the message registers and the capacity in CAP. -/
def withReply (m : Message) (capacity : Byte) (s : State) : State :=
  { s with
    mTypeId := m.typeId, mOpcode := m.opcode, mDataLen := m.dataLen
    mData := s.mData.writeBytes 0 (m.data.take 27), cap := capacity }

/-- The frame of the message that the state holds; none where its ENCODE ends in an error. -/
def replyFrame (s : State) : List Byte :=
  if encodeVerdict s = .ok then encodeBody s ++ [crc8 s.cfg (encodeBody s)] else []

/-- The bytes that `build_reply` takes from FB, as many as RESULT counts, are that frame. -/
theorem encodeEnd_frame (s : State) :
    (if (encodeVerdict s).code = 0x00 then
      (encodeEnd s (encodeVerdict s)).fb.readBytes 0 (encodeEnd s (encodeVerdict s)).result.toNat
    else []) = replyFrame s := by
  rw [replyFrame]
  refine if_ctx_congr code_eq_zero_iff (fun hok => ?_) fun _ => rfl
  have hlen := dataLen_le_of_encodeVerdict_ok hok
  have hresult : (encodeEnd s .ok).result.toNat = 4 + s.mDataLen.toNat := by
    refine (BitVec.toNat_ofNat _ _).trans (Nat.mod_eq_of_lt ?_)
    omega
  rw [hok, hresult]
  exact withEncodedFrame_readBytes s

theorem buildReply_encodes {ctx : Context} (hrole : ctx.role = .peripheral) (hrequest : ctx.onRequest = true)
    (reply : Byte → Message) (capacity : Byte) (s : State) :
    buildReply ctx reply capacity s =
      let u := withReply (reply ctx.requestedOpcode) capacity s
      .next { engine := encodeEnd u (encodeVerdict u), result := (encodeVerdict u).code, frame := replyFrame u } := by
  rw [buildReply, hrole]
  dsimp only
  rw [if_pos hrequest, runOps_replyOps, execEncode_eq_encodeEnd, andThen_next, encodeEnd_status, code_ok,
    encodeEnd_frame]
  rfl

/-! ### The encoded message (R190) -/

/-- A byte that the callback's list gives is in M_DATA, and the others there are as before (log entry 15). -/
theorem readByte_withReply (m : Message) (capacity : Byte) (s : State) {i : Nat} (hi : i < 27) :
    (withReply m capacity s).mData.readByte i = m.data.getD i (s.mData.readByte i) := by
  refine (Memory.readByte_writeBytes s.mData 0 _ i).trans ?_
  by_cases hgiven : i < m.data.length
  · rw [dif_pos (by rw [List.length_take]; omega), List.getElem_take, List.getD_eq_getElem _ _ hgiven]
    rfl
  · rw [dif_neg (by rw [List.length_take]; omega), List.getD_eq_default _ _ (Nat.not_lt.mp hgiven)]

theorem encodeBody_withReply (m : Message) (capacity : Byte) (s : State) (hlen : m.dataLen.toNat ≤ 27) :
    encodeBody (withReply m capacity s) =
      [m.typeId, m.opcode, m.dataLen] ++
        (List.range m.dataLen.toNat).map (fun i => m.data.getD i (s.mData.readByte i)) := by
  refine congrArg ([m.typeId, m.opcode, m.dataLen] ++ ·) (List.map_congr_left fun i hi => ?_)
  have hi := List.mem_range.mp hi
  rw [Nat.zero_add]
  exact readByte_withReply m capacity s (hi.trans_le hlen)

section
variable {ctx : Context} {reply : Byte → Message} {capacity : Byte} {s : State} (hrole : ctx.role = .peripheral)
  (hrequest : ctx.onRequest = true)
include hrole hrequest

theorem buildReply_error {e : Status} (he : e ≠ .ok)
    (hverdict : encodeVerdict (withReply (reply ctx.requestedOpcode) capacity s) = e) :
    ∃ r, buildReply ctx reply capacity s = .next r ∧ r.result = e.code ∧ r.frame = [] :=
  ⟨_, buildReply_encodes hrole hrequest reply capacity s, congrArg Status.code hverdict,
    if_neg (hverdict.trans_ne he)⟩

theorem buildReply_ok (hverdict : encodeVerdict (withReply (reply ctx.requestedOpcode) capacity s) = .ok) :
    ∃ r, buildReply ctx reply capacity s = .next r ∧ r.result = 0x00 ∧
      r.frame = encodeBody (withReply (reply ctx.requestedOpcode) capacity s) ++
        [crc8 s.cfg (encodeBody (withReply (reply ctx.requestedOpcode) capacity s))] :=
  ⟨_, buildReply_encodes hrole hrequest reply capacity s, congrArg Status.code hverdict, if_pos hverdict⟩

end

/-- Settles O57: the checks of R125 in order, on the capacity and the length of the callback's message. -/
theorem buildReplyRule : Obligations.BuildReplyRule := by
  intro ctx reply capacity s m n cap body answers
  refine ⟨fun hrole => buildReply_controller hrole reply capacity s,
    fun hrole hrequest => buildReply_no_callback hrole hrequest reply capacity s, fun hrole hrequest =>
      ⟨fun hcap => ?_, fun hcap hlen => ?_, fun hcap hlen hroom => ?_, fun hcap hlen hroom => ?_⟩⟩
  · exact buildReply_error hrole hrequest (e := .invalidArgument) nofun (if_pos hcap)
  · exact buildReply_error hrole hrequest (e := .payloadTooLarge) nofun
      ((if_neg (Nat.not_lt.mpr hcap)).trans (if_pos hlen))
  · exact buildReply_error hrole hrequest (e := .bufferTooSmall) nofun
      ((if_neg (Nat.not_lt.mpr hcap)).trans ((if_neg (Nat.not_lt.mpr hlen)).trans (if_pos hroom)))
  · have hok := buildReply_ok hrole hrequest (reply := reply) (capacity := capacity) (s := s)
      ((if_neg (Nat.not_lt.mpr hcap)).trans ((if_neg (Nat.not_lt.mpr hlen)).trans (if_neg (Nat.not_lt.mpr hroom))))
    rwa [encodeBody_withReply m capacity s hlen] at hok

/-! ### Two replies in a row (R191, R192) -/

@[simp] theorem encodeEnd_mData (s : State) (e : Status) : (encodeEnd s e).mData = s.mData := by
  cases e with
  | _ => rfl

@[simp] theorem encodeEnd_cfg (s : State) (e : Status) : (encodeEnd s e).cfg = s.cfg := by
  cases e with
  | _ => rfl

theorem replyFrame_congr {s s' : State} (hcfg : s'.cfg = s.cfg) (hbody : encodeBody s' = encodeBody s)
    (hverdict : encodeVerdict s' = encodeVerdict s) : replyFrame s' = replyFrame s := by
  rw [replyFrame, replyFrame, hcfg, hbody, hverdict]

/-- The payload bytes that the callback gives are written once more, and the others were left alone. -/
theorem encodeBody_withReply_again (m : Message) (capacity : Byte) {s t : State}
    (hdata : t.mData = (withReply m capacity s).mData) :
    encodeBody (withReply m capacity t) = encodeBody (withReply m capacity s) := by
  refine encodeBody_congr rfl rfl rfl fun i _ => ?_
  change (t.mData.writeBytes 0 (m.data.take 27)).readByte i = _
  rw [hdata]
  change ((s.mData.writeBytes 0 _).writeBytes 0 _).readByte i = (s.mData.writeBytes 0 _).readByte i
  simp only [Memory.readByte_writeBytes]
  split_ifs <;> rfl

/-- Settles O55: the engine that the first reply leaves holds all that the second one encodes. -/
theorem repliesPersist : Obligations.RepliesPersist := by
  intro ctx reply capacity s
  cases hrole : ctx.role with
  | controller =>
    exact ⟨_, _, buildReply_controller hrole reply capacity s, buildReply_controller hrole reply capacity _, rfl, rfl,
      nofun⟩
  | peripheral =>
    cases hrequest : ctx.onRequest with
    | false =>
      exact ⟨_, _, buildReply_no_callback hrole hrequest reply capacity s,
        buildReply_no_callback hrole hrequest reply capacity _, rfl, rfl, fun _ _ => ⟨rfl, rfl⟩⟩
    | true =>
      have hverdict (t : State) : encodeVerdict (withReply (reply ctx.requestedOpcode) capacity t) =
          encodeVerdict (withReply (reply ctx.requestedOpcode) capacity s) := encodeVerdict_congr rfl rfl
      refine ⟨_, _, buildReply_encodes hrole hrequest reply capacity s,
        buildReply_encodes hrole hrequest reply capacity _, congrArg Status.code (hverdict _), ?_, nofun⟩
      exact replyFrame_congr (encodeEnd_cfg _ _) (encodeBody_withReply_again _ _ (encodeEnd_mData _ _)) (hverdict _)

end Sys2Proof.Machine
end

section
/-! The bus scanner (44_environment.md R193, R194): what one probe of an address finds, and the whole scan. -/

namespace Sys2Proof.Machine

section
variable (acks : Byte → Bool) (answers : Byte → List Byte) (accept : DecodedMessage → Bool)

/-- The engine after the scanner has decoded the answer of an address. -/
def withProbed (a : Byte) (s : State) : State :=
  decodeEnd false (withReceivedFrame ((answers a).take 31) s)
    (decodeVerdict (withReceivedFrame ((answers a).take 31) s))

/-- The addresses of R194 acknowledge, and answer with a valid frame that `STRICT_ACCEPT` takes. -/
def scanFinds (cfg : Config) (source a : Byte) : Bool :=
  acks a && validFrame (crc8 cfg) ((answers a).take 31) && accept (frameMessage source ((answers a).take 31))

@[simp] theorem withProbed_cfg (a : Byte) (s : State) : (withProbed answers a s).cfg = s.cfg := decodeEnd_cfg _ _ _

@[simp] theorem withProbed_mSrcAddr (a : Byte) (s : State) : (withProbed answers a s).mSrcAddr = s.mSrcAddr := by
  rw [withProbed]
  cases decodeVerdict (withReceivedFrame ((answers a).take 31) s) with
  | _ => rfl

variable {answers} {a : Byte} {s : State}

theorem withProbed_status_eq_zero_iff :
    (withProbed answers a s).status = 0x00 ↔ validFrame (crc8 s.cfg) ((answers a).take 31) = true := by
  rw [withProbed, decodeEnd_status, code_eq_zero_iff,
    decodeVerdict_withReceivedFrame s (List.length_take_le 31 (answers a))]

theorem decodedMessage_withProbed (hvalid : validFrame (crc8 s.cfg) ((answers a).take 31) = true) :
    decodedMessage (withProbed answers a s) = frameMessage s.mSrcAddr ((answers a).take 31) := by
  have hok := (decodeVerdict_withReceivedFrame s (List.length_take_le 31 (answers a))).mpr hvalid
  rw [withProbed, hok, decodedMessage_of_validFrame false s hvalid]

theorem mTypeId_withProbed (hvalid : validFrame (crc8 s.cfg) ((answers a).take 31) = true) :
    (withProbed answers a s).mTypeId = (answers a).getD 0 0 := by
  have htype : (withProbed answers a s).mTypeId = ((answers a).take 31).getD 0 0 :=
    congrArg DecodedMessage.typeId (decodedMessage_withProbed hvalid)
  rw [htype, List.getD_eq_getElem?_getD, List.getD_eq_getElem?_getD, List.getElem?_take_of_lt (by decide)]

variable {acks accept}

/-- What the scanner asks of the decoded answer of an address that acknowledged. -/
theorem scanFinds_iff (hacks : acks a = true) :
    ((withProbed answers a s).status = 0x00 ∧ accept (decodedMessage (withProbed answers a s)) = true) ↔
      scanFinds acks answers accept s.cfg s.mSrcAddr a = true := by
  rw [withProbed_status_eq_zero_iff, scanFinds, hacks, Bool.true_and, Bool.and_eq_true]
  exact and_congr_right fun hvalid => by rw [decodedMessage_withProbed hvalid]

/-- An address that does not acknowledge, or that answers nothing, is none of R194. -/
theorem scanFinds_silent (cfg : Config) (source : Byte) (hsilent : (acks a && !(answers a).isEmpty) = false) :
    scanFinds acks answers accept cfg source a = false := by
  rw [Bool.and_eq_false_iff, Bool.not_eq_false', List.isEmpty_iff] at hsilent
  obtain hacks | hempty := hsilent
  · rw [scanFinds, hacks, Bool.false_and, Bool.false_and]
  · rw [scanFinds, hempty]
    simp [validFrame]

/-! ### One address -/

variable {rest : List Byte}

theorem scan_cons_silent (hsilent : (acks a && !(answers a).isEmpty) = false) :
    scan acks answers accept (a :: rest) s = scan acks answers accept rest s := by
  rw [scan, hsilent]
  rfl

theorem scan_cons_probed {r : Scanned} (hprobe : (acks a && !(answers a).isEmpty) = true)
    (hrest : scan acks answers accept rest (withProbed answers a s) = .next r) :
    scan acks answers accept (a :: rest) s = .next { r with
      found := if scanFinds acks answers accept s.cfg s.mSrcAddr a = true then (a, (answers a).getD 0 0) :: r.found
        else r.found } := by
  obtain ⟨hacks, -⟩ := Bool.and_eq_true_iff.mp hprobe
  have hops : runOps (loadFrameOps ((answers a).take fbSize) ++ [.decode]) s = .next (withProbed answers a s) :=
    (runOps_scanOps _ s).trans (decodeFrame_eq_decodeEnd false _)
  rw [scan, if_pos hprobe, hops, andThen_next, hrest]
  refine congrArg (fun found => Host.Outcome.next { r with found := found }) ?_
  refine if_ctx_congr (scanFinds_iff hacks) (fun hfinds => ?_) fun _ => rfl
  obtain ⟨hok, -⟩ := (scanFinds_iff hacks).mpr hfinds
  rw [mTypeId_withProbed (withProbed_status_eq_zero_iff.mp hok)]

end

/-! ### The whole scan -/

/-- No probe changes the parameters or M_SRC_ADDR, so each address is judged as from the state at the start. -/
theorem scan_finds (acks : Byte → Bool) (answers : Byte → List Byte) (accept : DecodedMessage → Bool)
    (addrs : List Byte) (s : State) :
    ∃ r, scan acks answers accept addrs s = .next r ∧
      r.found = (addrs.filter (scanFinds acks answers accept s.cfg s.mSrcAddr)).map
        (fun a => (a, (answers a).getD 0 0)) := by
  induction addrs generalizing s with
  | nil => exact ⟨_, rfl, rfl⟩
  | cons a rest ih =>
    cases hprobe : acks a && !(answers a).isEmpty with
    | false =>
      rw [scan_cons_silent hprobe, List.filter_cons_of_neg (Bool.eq_false_iff.mp (scanFinds_silent _ _ hprobe))]
      exact ih s
    | true =>
      obtain ⟨r, hrest, hfound⟩ := ih (withProbed answers a s)
      rw [withProbed_cfg, withProbed_mSrcAddr] at hfound
      refine ⟨_, scan_cons_probed hprobe hrest, ?_⟩
      rw [List.filter_cons, hfound]
      split_ifs <;> rfl

theorem scanFinds_not_strict (acks : Byte → Bool) (answers : Byte → List Byte) (cfg : Config) (source : Byte) :
    scanFinds acks answers (fun _ => true) cfg source =
      fun a => acks a && validFrame (crc8 cfg) ((answers a).take 31) :=
  funext fun _ => Bool.and_true _

/-- Settles O56. -/
theorem scanFindsExactlyValidFrames : Obligations.ScanFindsExactlyValidFrames := by
  intro acks answers addrs s
  refine ⟨fun accept => scan_finds acks answers accept addrs s, ?_⟩
  have hfinds := scan_finds acks answers (fun _ => true) addrs s
  rwa [scanFinds_not_strict] at hfinds

end Sys2Proof.Machine
end

section
/-! An error is precise (60_exceptions.md R212): a command that does not end Ok has raised its error in the state it
started from, but for a DECODE.C that ends CrcMismatch, which has counted it. -/

namespace Sys2Proof.Machine

/-! ### How each shared operation errs -/

/-- `t` is `s` with one error of the engine raised in it. -/
def RaisedFrom (s t : State) : Prop := ∃ e : Status, e.RaisedByEngine ∧ t = raise e s

theorem execCrc8_error {s t : State} (h : execCrc8 s = .next t) (herr : t.status ≠ 0x00) : RaisedFrom s t := by
  obtain rfl | rfl := execCrc8_cases h
  · exact ⟨.invalidArgument, by decide, rfl⟩
  · exact absurd (done_status _ _) herr

theorem execEncode_error {s t : State} (h : execEncode s = .next t) (herr : t.status ≠ 0x00) : RaisedFrom s t := by
  obtain hraised | ⟨-, rfl⟩ := execEncode_cases h
  · exact hraised
  · exact absurd (done_status _ _) herr

theorem decodeFrame_error {ctx : Bool} {s t : State} (h : decodeFrame ctx s = .next t) (herr : t.status ≠ 0x00) :
    RaisedFrom s t ∨ (ctx = true ∧ t = raise .crcMismatch (noteCrcError s)) := by
  obtain hraised | hcounted | ⟨-, rfl⟩ := decodeFrame_cases h
  · exact .inl hraised
  · exact .inr hcounted
  · exact absurd (done_status _ _) herr

theorem putBytes_error {k : Nat} {s t : State} (h : putBytes k s = .next t) (herr : t.status ≠ 0x00) :
    RaisedFrom s t := by
  obtain rfl | ⟨-, rfl⟩ := putBytes_cases h
  · exact ⟨.marshalRefused, by decide, rfl⟩
  · exact absurd (done_status _ _) herr

theorem getBytes_error {k : Nat} {s t : State} (h : getBytes k s = .next t) (herr : t.status ≠ 0x00) :
    RaisedFrom s t := by
  obtain rfl | rfl := getBytes_cases h
  · exact ⟨.marshalRefused, by decide, rfl⟩
  · exact absurd (done_status _ _) herr

/-! ### Every command -/

/-- Only DECODE.C has stored anything when it raises an error. -/
theorem exec_command_error {c : Command} {s t : State} (h : exec c.toInstr s = .next t) (herr : t.status ≠ 0x00) :
    RaisedFrom s t ∨ (c = .decodeC ∧ t = raise .crcMismatch (noteCrcError s)) := by
  cases c with
  | crc8 => exact .inl (execCrc8_error h herr)
  | encode => exact .inl (execEncode_error h herr)
  | decode => exact (decodeFrame_error (ctx := false) h herr).imp_right fun ⟨hctx, _⟩ => absurd hctx Bool.false_ne_true
  | decodeC => exact (decodeFrame_error (ctx := true) h herr).imp_right fun ⟨_, ht⟩ => ⟨rfl, ht⟩
  | put8 => exact .inl (putBytes_error (k := 1) h herr)
  | put16 => exact .inl (putBytes_error (k := 2) h herr)
  | put32 => exact .inl (putBytes_error (k := 4) h herr)
  | get8 => exact .inl (getBytes_error (k := 1) h herr)
  | get16 => exact .inl (getBytes_error (k := 2) h herr)
  | get32 => exact .inl (getBytes_error (k := 4) h herr)

/-- A listed command byte errs as its command does; a reserved one raises InvalidArgument (30_encoding.md R79). -/
theorem exec_error {i : Instr} {s t : State}
    (hi : (∃ c, Issues i c) ∨ ∃ v : Word, i = .wr 0x00 v ∧ ReservedCommandByte (commandByte v))
    (h : exec i s = .next t) (herr : t.status ≠ 0x00) :
    RaisedFrom s t ∨ (Issues i .decodeC ∧ t = raise .crcMismatch (noteCrcError s)) := by
  obtain ⟨c, hissues⟩ | ⟨v, rfl, hreserved⟩ := hi
  · rw [exec_issued hissues] at h
    exact (exec_command_error h herr).imp_right fun ⟨hc, ht⟩ => ⟨hc ▸ hissues, ht⟩
  · cases (exec_wr_reservedCommand hreserved s).symm.trans h
    exact .inl ⟨.invalidArgument, by decide, rfl⟩

/-- Settles O46: an error raised in a state changes its STATUS and RESULT alone, and the counted one the statistics
besides. -/
theorem errorsArePrecise : Obligations.ErrorsArePrecise := by
  intro i s t hi h herr
  obtain ⟨e, ⟨-, hcode⟩, rfl⟩ | ⟨hissues, rfl⟩ := exec_error hi h herr
  · exact ⟨hcode, .inl rfl⟩
  · exact ⟨by rw [raise_status]; decide, .inr ⟨hissues, rfl, rfl⟩⟩

end Sys2Proof.Machine
end
